-- ==== Sys2Proof/Word.lean ====
section
/-! DEFINITION. The widths of the block's values (spec/00_scope.md R11): `u8`, `u16` and `u32`. -/

namespace Sys2Proof

/-- `u8` of R11: a frame byte, the node id, the byte operand of a command. -/
abbrev Byte := BitVec 8

/-- `u16` of R11: the CRC and an instrument register address. -/
abbrev Half := BitVec 16

/-- `u32` of R11: a command word, a block register, a wire integer. -/
abbrev Word := BitVec 32

end Sys2Proof
end

