-- ==== Sys2Proof/Config.lean ====
section
/-! DEFINITION. What is fixed for the machine: the source's constants (spec/00_scope.md R8), the constants the spec
chose (R9), and the host's named parameters (R9, R173). The parameters the spec leaves OPEN are arguments: they are fields
of `HostParams` without a default, and BLOCK_BASE is an argument of the address functions of Machine/Bus.lean. No rule of
the block depends on any of them. -/

namespace Sys2Proof.Config

/-- R8: the reflected polynomial of CRC-16/MODBUS (90_conflicts.md C1). -/
def crcPoly : Half := 0xA001

/-- R8: the CRC's initial register value. -/
def crcSeed : Half := 0xFFFF

/-- R8: how often the register shifts for one byte. -/
def crcShiftsPerByte : Nat := 8

/-- R8: the READ function code. -/
def readFunction : Byte := 0x03

/-- R8: the WRITE function code. -/
def writeFunction : Byte := 0x06

/-- R8: the quantity field of a write, 0x0001. -/
def writeQuantity : Half := 0x0001

/-- R8: the byte-count field of a write. -/
def writeByteCount : Byte := 0x04

/-- R8: the quantity field of a read, 0x0004. -/
def readQuantity : Half := 0x0004

/-- R8: the length of a read request. -/
def readRequestLength : Nat := 8

/-- R8: the length of a write request. -/
def writeRequestLength : Nat := 13

/-- R8: the length of either response. -/
def responseLength : Nat := 9

/-- R9: TX_CAP, the request buffer's capacity. -/
def txCap : Nat := 16

/-- R9: RX_CAP, the receive buffer's capacity. -/
def rxCap : Nat := 16

/-- R9: EXP_LEN, the expected-response buffer's length. -/
def expLen : Nat := 9

/-- R9: the size of the block's register window, in bytes. -/
def windowSize : Nat := 0x100

/-- R9: the width of the host data bus, in bytes. -/
def busBytes : Nat := 4

/-- R176: the on/off register of the instrument. -/
def onOffRegister : Half := 0x010E

end Sys2Proof.Config

namespace Sys2Proof

/-- An exact decimal number a user gives the host: `mantissa / 10 ^ places`. -/
structure Decimal where
  mantissa : Int
  places   : Nat
deriving DecidableEq, Repr

/-- R180 with decision D37: `trunc(x * scale)` over the exact decimal value, toward zero. -/
def Decimal.exactScale (x : Decimal) (scale : Nat) : Int :=
  (x.mantissa * scale).tdiv (10 ^ x.places)

/-- The host's named parameters (R9, R173). A field with a default has the source's value; a field without one is OPEN
(92_eei_decisions.md D35, D36) and a statement that names a `HostParams` holds for every value of it. -/
structure HostParams where
  /-- INTER_CMD_DELAY in ms, a lower bound (D34). -/
  interCmdDelay : Nat := 200
  /-- WRITE_TIMEOUT in ms. -/
  writeTimeout : Nat := 100
  /-- READ_TIMEOUT in ms. -/
  readTimeout : Nat := 250
  /-- RX_READ_MAX, the most bytes asked of the Transport for a response (D40). -/
  rxReadMax : Nat := 9
  /-- SCALE_CONVERT, user value and scale factor to integer (D37). -/
  scaleConvert : Decimal → Nat → Int := Decimal.exactScale
  /-- VALUE_SIGNED, the host's reading of WVALUE and RDVAL (D36). -/
  valueSigned : Bool
  regMode  : Half
  regSetV  : Half
  regSetC  : Half
  regSetR  : Half
  regSetP  : Half
  regMeasV : Half
  regMeasC : Half

end Sys2Proof
end

