-- ==== Sys2Proof/Machine/Operands.lean ====
section
/-! DEFINITION. Operand forms: the fields of a command word (spec/30_encoding.md R71, R72), the byte order of frame
fields (spec/20_memory.md R50, spec/00_scope.md R12), and the filling of a buffer from a byte list. -/

namespace Sys2Proof.Machine

/-- R71: the command code, bits [7:0]. -/
def opField (w : Word) : Byte := w.extractLsb' 0 8

/-- R71, R72: the byte operand `b = w[15:8]`, used as it is. -/
def immField (w : Word) : Byte := w.extractLsb' 8 8

/-- R71: the reserved bits [31:16]. -/
def resField (w : Word) : Half := w.extractLsb' 16 16

/-- R76: the assembled word of a command, `zext_32(imm8 ++ op)`. -/
def commandWord (imm op : Byte) : Word := (imm ++ op).setWidth 32

/-- R12: `be16(v)`, high byte first. -/
def be16 (v : Half) : List Byte := [v.extractLsb' 8 8, v.extractLsb' 0 8]

/-- R12: `be32(v)`, most significant byte first. -/
def be32 (v : Word) : List Byte :=
  [v.extractLsb' 24 8, v.extractLsb' 16 8, v.extractLsb' 8 8, v.extractLsb' 0 8]

/-- R12: `from_be16(b0, b1)`. -/
def fromBe16 (b0 b1 : Byte) : Half := b0 ++ b1

/-- R12: `from_be32(b0, b1, b2, b3)`. -/
def fromBe32 (b0 b1 b2 b3 : Byte) : Word := b0 ++ b1 ++ b2 ++ b3

/-- A buffer of `n` bytes holding `frame` from index 0, zero past it (R46: `frame ++ zeros(k)`). -/
def bufferOf (n : Nat) (frame : List Byte) : Vector Byte n := Vector.ofFn fun i => frame.getD i 0

/-- R12: `buf[0..k)`, the first `k` bytes of a buffer. -/
def firstBytes {n : Nat} (buf : Vector Byte n) (k : Nat) : List Byte := buf.toList.take k

end Sys2Proof.Machine
end

