-- ==== Sys2Proof/Machine/Crc.lean ====
section
/-! DEFINITION. The CRC engine's pure functions (spec/40_crc.md R100 to R103). -/

namespace Sys2Proof.Machine

/-- R100: one shift of the loop. The bit tested is the bit shifted out; the shift fills bit 15 with 0. -/
def crcShift (c : Half) : Half :=
  if c.getLsbD 0 then (c >>> 1) ^^^ Config.crcPoly else c >>> 1

/-- R100: `repeat n times`. -/
def crcShifts : Nat → Half → Half
  | 0, c => c
  | n + 1, c => crcShifts n (crcShift c)

/-- R100: `crc_step(c, b)`. -/
def crcStep (c : Half) (b : Byte) : Half :=
  crcShifts Config.crcShiftsPerByte (c ^^^ b.setWidth 16)

/-- R101: `crc16(xs)`, with no final XOR (R10). -/
def crc16 (xs : List Byte) : Half := xs.foldl crcStep Config.crcSeed

/-- R102: `appendCrc(xs)`, the CRC high byte first. -/
def appendCrc (xs : List Byte) : List Byte := xs ++ be16 (crc16 xs)

/-- R103: `verifyCrc(xs)`; false for a list shorter than 2 bytes. -/
def verifyCrc (xs : List Byte) : Bool :=
  if xs.length < 2 then false
  else
    let n := xs.length
    crc16 (xs.take (n - 2)) == fromBe16 (xs.getD (n - 2) 0) (xs.getD (n - 1) 0)

end Sys2Proof.Machine
end

