-- ==== Sys2Proof/Machine/Frames.lean ====
section
/-! DEFINITION. The frame codec's pure functions: the request builders (spec/41_frame_build.md R120 to R122) and the
response parser (spec/42_frame_check.md R140). The layouts are spec/30_encoding.md R81 to R84. -/

namespace Sys2Proof.Machine

/-- R120, R121: the 7 bytes a write request and its response share. -/
def writeHead (n : Byte) (a : Half) : List Byte :=
  [n, Config.writeFunction] ++ be16 a ++ be16 Config.writeQuantity ++ [Config.writeByteCount]

/-- R120: `writeRequest(n, a, v)`, 13 bytes. -/
def writeRequest (n : Byte) (a : Half) (v : Word) : List Byte := appendCrc (writeHead n a ++ be32 v)

/-- R121: `writeExpected(n, a)`, 9 bytes. -/
def writeExpected (n : Byte) (a : Half) : List Byte := appendCrc (writeHead n a)

/-- R122: `readRequest(n, a)`, 8 bytes; the node id is an explicit input (90_conflicts.md C3). -/
def readRequest (n : Byte) (a : Half) : List Byte :=
  appendCrc ([n, Config.readFunction] ++ be16 a ++ be16 Config.readQuantity)

/-- R84: the bytes of a read response with the fields given, whatever its CRC field is. -/
def readResponse (n func count : Byte) (v : Word) (crc : Half) : List Byte :=
  [n, func, count] ++ be32 v ++ be16 crc

/-- R82: the bytes of a write response with the fields given, whatever its CRC field is. -/
def writeResponse (n : Byte) (a : Half) (crc : Half) : List Byte := writeHead n a ++ be16 crc

/-- R140: `parseReadResponse(f)`: the byte count, not compared, and the value. It reads no other byte. -/
def parseReadResponse (f : List Byte) : Byte × Word :=
  (f.getD 2 0, fromBe32 (f.getD 3 0) (f.getD 4 0) (f.getD 5 0) (f.getD 6 0))

end Sys2Proof.Machine
end

