-- ==== Sys2Proof/Syntax.lean ====
section
/-! DEFINITION. The instructions: one constructor per row of spec/opcode_table.json. The first thirteen are the command
words of spec/30_encoding.md R73; the last four are the frame kinds of R80, which are byte strings the block builds or
receives (log entries 5 and 6). -/

namespace Sys2Proof

inductive Instr where
  /-- R160. -/
  | nop
  /-- R104. -/
  | crcInit
  /-- R105; the operand is IMM8. -/
  | crcByte (b : Byte)
  /-- R123. -/
  | buildWrite
  /-- R124. -/
  | buildRead
  /-- R125. -/
  | txClear
  /-- R126; the operand is IMM8. -/
  | txPush (b : Byte)
  /-- R127. -/
  | txAppendCrc
  /-- R143. -/
  | rxClear
  /-- R144; the operand is IMM8. -/
  | rxPush (b : Byte)
  /-- R145. -/
  | rxVerifyCrc
  /-- R146. -/
  | checkWrite
  /-- R147. -/
  | parseRead
  /-- R81: a write request. Its CRC is the one of its other bytes, so it is no operand. -/
  | frameWriteRequest (node : Byte) (addr : Half) (value : Word)
  /-- R82: a write response as received, with whatever CRC field it carries. -/
  | frameWriteResponse (node : Byte) (addr : Half) (crc : Half)
  /-- R83: a read request. Its CRC is the one of its other bytes, so it is no operand. -/
  | frameReadRequest (node : Byte) (addr : Half)
  /-- R84: a read response as received; node id, function and byte count are not checked by the block. -/
  | frameReadResponse (node func count : Byte) (value : Word) (crc : Half)
deriving DecidableEq, Repr

end Sys2Proof
end

