-- ==== Sys2Proof/WellFormed.lean ====
section
/-! DEFINITION. Which terms of `Instr` stand for an encoding of their own. Every command is one: its operand is a byte
and every byte is allowed (spec/30_encoding.md R72). Of the frames, a write response and a read response are both 9 bytes
long (R80), so a 9-byte string with the fixed bytes of R82 stands for a write response and for nothing else
(log entry 6). -/

namespace Sys2Proof

/-- The fixed bytes of a write response (R82: byte 1, and bytes 4 to 6), read in the places they have in a read response
(R84): the function byte, and the low three bytes of the value. -/
def writeResponseShape (func : Byte) (value : Word) : Bool :=
  func == Config.writeFunction &&
    value.extractLsb' 0 24 == Config.writeQuantity ++ Config.writeByteCount

/-- The check: a read response does not have the fixed bytes of a write response. -/
def Instr.wellFormed : Instr → Bool
  | .nop | .crcInit | .crcByte _ | .buildWrite | .buildRead | .txClear | .txPush _ | .txAppendCrc
  | .rxClear | .rxPush _ | .rxVerifyCrc | .checkWrite | .parseRead => true
  | .frameWriteRequest _ _ _ | .frameWriteResponse _ _ _ | .frameReadRequest _ _ => true
  | .frameReadResponse _ func _ value _ => !writeResponseShape func value

end Sys2Proof
end

