-- ==== Sys2Proof/Decode.lean ====
section
/-! DEFINITION. Decoding of command words (spec/30_encoding.md R70 to R75) and of frames (R80 to R85), and the encoder.
Decoding is total and rejects by name. A rejected command word is the illegal command of R161, which the machine runs; a
rejected byte string is no frame of R80. -/

namespace Sys2Proof

open Sys2Proof.Machine

/-- What an instruction is read from: the 32-bit word written to CMD, or the bytes of a frame, byte 0 first. -/
inductive RawInstr where
  | command (w : Word)
  | frame (bytes : List Byte)
deriving DecidableEq, Repr

/-- Why nothing was decoded. -/
inductive DecodeError where
  /-- R75: the OP is not in R73. -/
  | reservedOp (op : Byte)
  /-- R74.2: RES is not zero. -/
  | reservedBits (res : Half)
  /-- R74.3: IMM8 is not zero in a command that takes no operand. -/
  | unexpectedImm (imm : Byte)
  /-- R80: the bytes have the length or the fixed bytes of no frame kind. -/
  | unknownFrame (length : Nat)
  /-- R81, R83: a request whose last two bytes are not the CRC of the others. -/
  | requestCrc (crc : Half)
deriving DecidableEq, Repr

/-- R73, R74.3: a command that takes no operand is legal with IMM8 = 0 only. -/
def withoutOperand (imm : Byte) (i : Instr) : Except DecodeError Instr :=
  if imm = 0 then .ok i else .error (.unexpectedImm imm)

/-- R73: the command of an OP, with its operand. -/
def decodeOp (op imm : Byte) : Except DecodeError Instr :=
  match op with
  | 0x00#8 => withoutOperand imm .nop
  | 0x01#8 => withoutOperand imm .crcInit
  | 0x02#8 => .ok (.crcByte imm)
  | 0x10#8 => withoutOperand imm .buildWrite
  | 0x11#8 => withoutOperand imm .buildRead
  | 0x12#8 => withoutOperand imm .txClear
  | 0x13#8 => .ok (.txPush imm)
  | 0x14#8 => withoutOperand imm .txAppendCrc
  | 0x20#8 => withoutOperand imm .rxClear
  | 0x21#8 => .ok (.rxPush imm)
  | 0x22#8 => withoutOperand imm .rxVerifyCrc
  | 0x23#8 => withoutOperand imm .checkWrite
  | 0x24#8 => withoutOperand imm .parseRead
  | _ => .error (.reservedOp op)

/-- R74: decoding of a command word. -/
def decodeCommand (w : Word) : Except DecodeError Instr :=
  if resField w = 0 then decodeOp (opField w) (immField w) else .error (.reservedBits (resField w))

/-- A request is accepted when its last two bytes are the CRC of the others: when it is `frame`, the one the fields give. -/
def checkedRequest (bytes frame : List Byte) (crc : Half) (i : Instr) : Except DecodeError Instr :=
  if bytes = frame then .ok i else .error (.requestCrc crc)

/-- R80 to R85: decoding of a frame by its length and its fixed bytes. A 9-byte string with the fixed bytes of R82 is a
write response; every other 9-byte string is a read response, of which R84 checks no byte before the CRC. -/
def decodeFrame (bytes : List Byte) : Except DecodeError Instr :=
  match bytes with
  | [n, b1, a1, a0, b4, b5, b6, v3, v2, v1, v0, c1, c0] =>
    if b1 = 0x06 ∧ b4 = 0x00 ∧ b5 = 0x01 ∧ b6 = 0x04 then
      checkedRequest bytes (writeRequest n (fromBe16 a1 a0) (fromBe32 v3 v2 v1 v0)) (fromBe16 c1 c0)
        (.frameWriteRequest n (fromBe16 a1 a0) (fromBe32 v3 v2 v1 v0))
    else .error (.unknownFrame bytes.length)
  | [n, b1, a1, a0, b4, b5, c1, c0] =>
    if b1 = 0x03 ∧ b4 = 0x00 ∧ b5 = 0x04 then
      checkedRequest bytes (readRequest n (fromBe16 a1 a0)) (fromBe16 c1 c0)
        (.frameReadRequest n (fromBe16 a1 a0))
    else .error (.unknownFrame bytes.length)
  | [n, b1, b2, b3, b4, b5, b6, c1, c0] =>
    if b1 = 0x06 ∧ b4 = 0x00 ∧ b5 = 0x01 ∧ b6 = 0x04 then
      .ok (.frameWriteResponse n (fromBe16 b2 b3) (fromBe16 c1 c0))
    else .ok (.frameReadResponse n b1 b2 (fromBe32 b3 b4 b5 b6) (fromBe16 c1 c0))
  | _ => .error (.unknownFrame bytes.length)

/-- The decoder, total on every word and every byte string. -/
def decode : RawInstr → Except DecodeError Instr
  | .command w => decodeCommand w
  | .frame bytes => decodeFrame bytes

/-- The encoder, from R73, R76 and R81 to R84. -/
def encode : Instr → RawInstr
  | .nop => .command (commandWord 0 0x00)
  | .crcInit => .command (commandWord 0 0x01)
  | .crcByte b => .command (commandWord b 0x02)
  | .buildWrite => .command (commandWord 0 0x10)
  | .buildRead => .command (commandWord 0 0x11)
  | .txClear => .command (commandWord 0 0x12)
  | .txPush b => .command (commandWord b 0x13)
  | .txAppendCrc => .command (commandWord 0 0x14)
  | .rxClear => .command (commandWord 0 0x20)
  | .rxPush b => .command (commandWord b 0x21)
  | .rxVerifyCrc => .command (commandWord 0 0x22)
  | .checkWrite => .command (commandWord 0 0x23)
  | .parseRead => .command (commandWord 0 0x24)
  | .frameWriteRequest n a v => .frame (writeRequest n a v)
  | .frameWriteResponse n a crc => .frame (writeResponse n a crc)
  | .frameReadRequest n a => .frame (readRequest n a)
  | .frameReadResponse n func count v crc => .frame (readResponse n func count v crc)

/-- The bytes of the number `w`, bits 7 to 0 first: the numbering of spec/opcode_table.json, whose frames are written byte
0 first. -/
def bytesOfTableWord : Nat → Nat → List Byte
  | 0, _ => []
  | k + 1, w => BitVec.ofNat 8 w :: bytesOfTableWord k (w / 256)

/-- The length in bytes of the frame a table row of `nbits` bits stands for: the shortest frame of R80 that has the bits,
so that bits the row does not have are 0. -/
def frameBytesOfRow (nbits : Nat) : Nat :=
  if nbits ≤ 64 then Config.readRequestLength
  else if nbits ≤ 72 then Config.responseLength
  else Config.writeRequestLength

/-- What an opcode-table row's word stands for: a row of at most 32 bits is a command word, a longer one a frame. -/
def rawOfTableWord (nbits w : Nat) : RawInstr :=
  if nbits ≤ 32 then .command (BitVec.ofNat 32 w)
  else .frame (bytesOfTableWord (frameBytesOfRow nbits) w)

/-- The instruction the decoder reads from a table word; none where it rejects. -/
def decodeTableWord (nbits w : Nat) : Option Instr :=
  match decode (rawOfTableWord nbits w) with
  | .ok i => some i
  | .error _ => none

end Sys2Proof
end

