-- ==== Sys2Proof/Machine/State.lean ====
section
/-! DEFINITION. The machine's state as plain data: the block's state S of spec/10_state.md R22, the host's pending events
and what the last of them gave the host; the reasons a step can stop; and the state after reset (R45). -/

namespace Sys2Proof.Machine

open Sys2Proof

/-- What a host access can meet instead of completing. -/
inductive Fault where
  /-- `raise BusError(off)` of R14, R52 to R54 and R203: the access is refused with an error response and changes nothing.
  It is the host's fault, not a stop of the block: Machine/Bus.lean gives it to the host in `HostResponse.fault` and the
  step answers a next state, as program P4 (h) of 95_test_vectors.md goes on after one. No step answers `Outcome.fault`.
  Safe: the host can see it and the block's state is the one it had. -/
  | busError (off : Nat)
deriving DecidableEq, Repr

/-- Why a step has no meaning. -/
inductive Refusal where
  /-- Raised by an arm of `exec` that has no meaning yet; no arm does. Safe: the machine stops. -/
  | notModelled (mnemonic : String)
  /-- Raised by Machine/Bus.lean for a pending byte string that is no frame of R80 (or a request with another CRC than its
  own), which is therefore no row of the opcode table. Safe: the machine stops. -/
  | notAFrame (length : Nat)
deriving DecidableEq, Repr

/-- R32: the four outcome codes of ERR. -/
inductive Err where
  | ok
  | invalidResponse
  | invalidCrc
  | cmdError
deriving DecidableEq, Repr

/-- R22: the block's state S, exactly these fields. `txlen` and `rxcnt` are the integers 0..16 of R40. -/
structure Block where
  crc      : Half
  node     : Byte
  regaddr  : Half
  wvalue   : Word
  txbuf    : Vector Byte 16
  txlen    : Nat
  expbuf   : Vector Byte 9
  expvalid : Bool
  rxbuf    : Vector Byte 16
  rxcnt    : Nat
  rxovf    : Bool
  rdval    : Word
  rdbc     : Byte
  err      : Err
  crcok    : Bool
deriving DecidableEq, Repr

/-- R45: every field after reset. -/
def Block.reset : Block where
  crc := Config.crcSeed
  node := 0x00
  regaddr := 0x0000
  wvalue := 0x00000000
  txbuf := Vector.replicate 16 0x00
  txlen := 0
  expbuf := Vector.replicate 9 0x00
  expvalid := false
  rxbuf := Vector.replicate 16 0x00
  rxcnt := 0
  rxovf := false
  rdval := 0x00000000
  rdbc := 0x00
  err := .ok
  crcok := false

/-- R34: the block registers of the window. -/
inductive BlockReg where
  | cmd
  | status
  | node
  | regaddr
  | wvalue
  | crc
  | rdval
  | rdbc
  | txbuf (i : Fin 16)
  | rxbuf (i : Fin 16)
  | expbuf (i : Fin 9)
deriving DecidableEq, Repr

/-- What the host does next. Offsets are bytes from BLOCK_BASE, widths are bytes (R14). -/
inductive HostEvent where
  /-- `MemRead(off, width)`. -/
  | read (width off : Nat)
  /-- `MemWrite(off, width, value)`. -/
  | write (width off : Nat) (value : Word)
  /-- A frame given whole: the block's part of the exchange that carries it (log entry 5). -/
  | frame (bytes : List Byte)
  /-- R220: the reset input is pulsed, between accesses. -/
  | reset
  /-- The host makes no access for `ms` milliseconds (R174); the block does not observe it (R228). -/
  | wait (ms : Nat)
deriving DecidableEq, Repr

/-- What the last event gave the host. -/
inductive HostResponse where
  /-- Nothing: no access was made. -/
  | none
  /-- A write completed. -/
  | done
  /-- A read completed with this word. -/
  | data (w : Word)
  /-- R203: the access was refused and the host sees an error response. -/
  | fault (f : Fault)
  /-- R53: the access was at or past offset 0x100 and did not reach the block. What the host gets is the platform's and no
  value of it is modelled (log entry 3). -/
  | platform (off : Nat)
deriving DecidableEq, Repr

/-- The machine: the block, what the host does next (oldest first), and what the host's last event gave it. -/
structure State where
  block    : Block
  pending  : List HostEvent
  response : HostResponse
deriving DecidableEq, Repr

/-- The machine right after reset: the block as R45 says, nothing pending, no response (log entries 1 and 2). -/
def State.reset : State where
  block := Block.reset
  pending := []
  response := .none

end Sys2Proof.Machine
end

