-- ==== Sys2Proof/Machine/Flags.lean ====
section
/-! DEFINITION. The flags: the outcome codes and the STATUS word (spec/10_state.md R32, R36), and how a check computes ERR
and CRCOK (spec/42_frame_check.md R141, R142). -/

namespace Sys2Proof.Machine

/-- R32: the number of an outcome code. -/
def Err.code : Err → BitVec 2
  | .ok => 0
  | .invalidResponse => 1
  | .invalidCrc => 2
  | .cmdError => 3

/-- R36: one flag as a bit. -/
def flagBit (b : Bool) : BitVec 1 := BitVec.ofBool b

/-- R36: the STATUS word, from bit 31 down. -/
def statusWord (b : Block) : Word :=
  0#11 ++ BitVec.ofNat 5 b.rxcnt ++ 0#3 ++ BitVec.ofNat 5 b.txlen ++ 0#3 ++
    flagBit b.rxovf ++ flagBit b.expvalid ++ flagBit b.crcok ++ b.err.code

/-- R141: the received length is acceptable. -/
def lenOk (b : Block) : Bool := b.rxovf == false && b.rxcnt == Config.responseLength

/-- R103, R142: the outcome of the CRC test alone. -/
def crcOutcome (frame : List Byte) : Err := if verifyCrc frame then .ok else .invalidCrc

/-- R142.1 and R142.2: the length and CRC tests that both response checks make on RXBUF[0..9), in this order. -/
def responseOutcome (b : Block) : Err :=
  if lenOk b then crcOutcome (firstBytes b.rxbuf Config.responseLength) else .invalidResponse

/-- R142.3: the content test of a write response. -/
def contentOutcome (b : Block) : Err :=
  if firstBytes b.rxbuf Config.responseLength = b.expbuf.toList then .ok else .invalidResponse

end Sys2Proof.Machine
end

