-- ==== Sys2Proof/Machine/Ops.lean ====
section
/-! DEFINITION. The named operations over the block's state: buffers, operand registers, the register window
(spec/10_state.md R34 to R44), the outcome of a command (R200), the refusal of an access (spec/60_exceptions.md R203), and
reset (spec/70_reset_and_hazards.md R220). -/

namespace Sys2Proof.Machine

open Sys2Proof

/-- R32: the command's outcome is written to ERR. -/
def Block.setErr (b : Block) (e : Err) : Block := { b with err := e }

/-- R161: an illegal command word. -/
def Block.illegalCommand (b : Block) : Block := b.setErr .cmdError

/-- R33: a check that ran writes CRCOK, and its outcome ERR. -/
def Block.setCheck (b : Block) (crcok : Bool) (e : Err) : Block := { b with crcok := crcok, err := e }

/-- R12: `TXBUF[0..TXLEN)`. -/
def Block.txBytes (b : Block) : List Byte := firstBytes b.txbuf b.txlen

/-- R12: `RXBUF[0..RXCNT)`. -/
def Block.rxBytes (b : Block) : List Byte := firstBytes b.rxbuf b.rxcnt

/-- R123, R124: the request is put in TXBUF, zero past it, and TXLEN is its length. -/
def Block.setRequest (b : Block) (req : List Byte) : Block :=
  { b with txbuf := bufferOf 16 req, txlen := req.length }

/-- R126: the byte is put at index TXLEN, which is raised. -/
def Block.appendTx (b : Block) (x : Byte) : Block :=
  { b with txbuf := b.txbuf.setIfInBounds b.txlen x, txlen := b.txlen + 1 }

/-- R144: the byte is put at index RXCNT, which is raised. -/
def Block.appendRx (b : Block) (x : Byte) : Block :=
  { b with rxbuf := b.rxbuf.setIfInBounds b.rxcnt x, rxcnt := b.rxcnt + 1 }

/-- R37: NODE takes v[7:0]. -/
def Block.writeNode (b : Block) (v : Word) : Block := { b with node := v.extractLsb' 0 8 }

/-- R38: REGADDR takes v[15:0]. -/
def Block.writeRegaddr (b : Block) (v : Word) : Block := { b with regaddr := v.extractLsb' 0 16 }

/-- R39: WVALUE takes v. -/
def Block.writeWvalue (b : Block) (v : Word) : Block := { b with wvalue := v }

/-- R34: the block register at an offset that is a multiple of 4; none where the map says unmapped. -/
def regAt (off : Nat) : Option BlockReg :=
  match off / 4 with
  | 0 => some .cmd
  | 1 => some .status
  | 2 => some .node
  | 3 => some .regaddr
  | 4 => some .wvalue
  | 5 => some .crc
  | 6 => some .rdval
  | 7 => some .rdbc
  | k =>
    if h : 16 ≤ k ∧ k < 32 then some (.txbuf ⟨k - 16, by omega⟩)
    else if h : 32 ≤ k ∧ k < 48 then some (.rxbuf ⟨k - 32, by omega⟩)
    else if h : 48 ≤ k ∧ k < 57 then some (.expbuf ⟨k - 48, by omega⟩)
    else none

/-- R35 to R44: what a read of a block register returns. -/
def readReg (r : BlockReg) (b : Block) : Word :=
  match r with
  | .cmd => 0
  | .status => statusWord b
  | .node => b.node.setWidth 32
  | .regaddr => b.regaddr.setWidth 32
  | .wvalue => b.wvalue
  | .crc => b.crc.setWidth 32
  | .rdval => b.rdval
  | .rdbc => b.rdbc.setWidth 32
  | .txbuf i => b.txbuf[i].setWidth 32
  | .rxbuf i => b.rxbuf[i].setWidth 32
  | .expbuf i => b.expbuf[i].setWidth 32

/-- R52: 32 bits wide, at an offset that is a multiple of 4. -/
def accessLegal (width off : Nat) : Bool := width == Config.busBytes && off % 4 == 0

/-- A command completes: its effect on the block is the whole of it (R57, R200). -/
def State.complete (s : State) (f : Block → Block) : Host.Outcome State Fault Refusal :=
  .next { s with block := f s.block }

/-- R203: the refusal of an access. No field of the block changes; the host sees the error. -/
def State.refuseAccess (s : State) (off : Nat) : State := { s with response := .fault (.busError off) }

/-- R220: the reset event. Every block field takes its reset value in one step. -/
def State.resetBlock (s : State) : State := { s with block := Block.reset, response := .none }

end Sys2Proof.Machine
end

