-- ==== Sys2Proof/Machine/Control.lean ====
section
/-! DEFINITION. The control command (spec/43_control.md R160). The illegal command word of R161 is `Block.illegalCommand`
of Machine/Ops.lean. -/

namespace Sys2Proof.Machine

/-- R160: NOP clears ERR and touches no other field. -/
def execNop (s : State) : Host.Outcome State Fault Refusal := s.complete fun b => b.setErr .ok

end Sys2Proof.Machine
end

