-- ==== Sys2Proof/Machine/CrcEngine.lean ====
section
/-! DEFINITION. The CRC engine's commands (spec/40_crc.md). -/

namespace Sys2Proof.Machine

/-- R104. -/
def Block.crcInit (b : Block) : Block := { b with crc := Config.crcSeed, err := .ok }

/-- R105. -/
def Block.crcByte (x : Byte) (b : Block) : Block := { b with crc := crcStep b.crc x, err := .ok }

/-- R104: CRC_INIT. -/
def execCrcInit (s : State) : Host.Outcome State Fault Refusal := s.complete Block.crcInit

/-- R105: CRC_BYTE b. -/
def execCrcByte (x : Byte) (s : State) : Host.Outcome State Fault Refusal := s.complete (Block.crcByte x)

end Sys2Proof.Machine
end

