-- ==== Sys2Proof/Machine/FrameBuild.lean ====
section
/-! DEFINITION. The frame-building commands (spec/41_frame_build.md R123 to R127). -/

namespace Sys2Proof.Machine

/-- R123. -/
def Block.buildWrite (b : Block) : Block :=
  { b.setRequest (writeRequest b.node b.regaddr b.wvalue) with
    expbuf := bufferOf 9 (writeExpected b.node b.regaddr), expvalid := true, err := .ok }

/-- R124. -/
def Block.buildRead (b : Block) : Block :=
  { b.setRequest (readRequest b.node b.regaddr) with expvalid := false, err := .ok }

/-- R125. -/
def Block.txClear (b : Block) : Block := { b with txbuf := bufferOf 16 [], txlen := 0, err := .ok }

/-- R126. -/
def Block.txPush (x : Byte) (b : Block) : Block :=
  if b.txlen < Config.txCap then (b.appendTx x).setErr .ok else b.setErr .cmdError

/-- R127: the CRC of TXBUF[0..TXLEN) goes in high byte first, where two bytes are free. -/
def Block.txAppendCrc (b : Block) : Block :=
  if b.txlen ≤ 14 then
    ((b.appendTx ((crc16 b.txBytes).extractLsb' 8 8)).appendTx ((crc16 b.txBytes).extractLsb' 0 8)).setErr .ok
  else b.setErr .cmdError

/-- R123: BUILD_WRITE. -/
def execBuildWrite (s : State) : Host.Outcome State Fault Refusal := s.complete Block.buildWrite

/-- R124: BUILD_READ. -/
def execBuildRead (s : State) : Host.Outcome State Fault Refusal := s.complete Block.buildRead

/-- R125: TX_CLEAR. -/
def execTxClear (s : State) : Host.Outcome State Fault Refusal := s.complete Block.txClear

/-- R126: TX_PUSH b. -/
def execTxPush (x : Byte) (s : State) : Host.Outcome State Fault Refusal := s.complete (Block.txPush x)

/-- R127: TX_APPEND_CRC. -/
def execTxAppendCrc (s : State) : Host.Outcome State Fault Refusal := s.complete Block.txAppendCrc

end Sys2Proof.Machine
end

