-- ==== Sys2Proof/Machine/FrameCheck.lean ====
section
/-! DEFINITION. The response-checking commands (spec/42_frame_check.md R143 to R147). -/

namespace Sys2Proof.Machine

/-- R143. -/
def Block.rxClear (b : Block) : Block :=
  { b with rxbuf := bufferOf 16 [], rxcnt := 0, rxovf := false, err := .ok }

/-- R144: an overflow is no error of the push. -/
def Block.rxPush (x : Byte) (b : Block) : Block :=
  if b.rxcnt < Config.rxCap then (b.appendRx x).setErr .ok else { b with rxovf := true, err := .ok }

/-- R145. -/
def Block.rxVerifyCrc (b : Block) : Block :=
  if b.rxovf = true ∨ b.rxcnt < 2 then b.setCheck false .invalidResponse
  else b.setCheck (verifyCrc b.rxBytes) (crcOutcome b.rxBytes)

/-- R146: EXPVALID, then length, then CRC, then content (R142, R202). -/
def Block.checkWrite (b : Block) : Block :=
  if b.expvalid = false then b.setErr .cmdError
  else
    match responseOutcome b with
    | .ok => b.setCheck true (contentOutcome b)
    | e => b.setCheck false e

/-- R147: length, then CRC, then the value is parsed. On an error RDVAL and RDBC keep their values. -/
def Block.parseRead (b : Block) : Block :=
  match responseOutcome b with
  | .ok =>
    let parsed := parseReadResponse (firstBytes b.rxbuf Config.responseLength)
    { b.setCheck true .ok with rdbc := parsed.1, rdval := parsed.2 }
  | e => b.setCheck false e

/-- R143: RX_CLEAR. -/
def execRxClear (s : State) : Host.Outcome State Fault Refusal := s.complete Block.rxClear

/-- R144: RX_PUSH b. -/
def execRxPush (x : Byte) (s : State) : Host.Outcome State Fault Refusal := s.complete (Block.rxPush x)

/-- R145: RX_VERIFY_CRC. -/
def execRxVerifyCrc (s : State) : Host.Outcome State Fault Refusal := s.complete Block.rxVerifyCrc

/-- R146: CHECK_WRITE. -/
def execCheckWrite (s : State) : Host.Outcome State Fault Refusal := s.complete Block.checkWrite

/-- R147: PARSE_READ. -/
def execParseRead (s : State) : Host.Outcome State Fault Refusal := s.complete Block.parseRead

end Sys2Proof.Machine
end

