-- ==== Sys2Proof/Machine/FrameExchange.lean ====
section
/-! DEFINITION. The meanings of the four frame rows of the opcode table (spec/30_encoding.md R81 to R84). A frame is no
command word: it is what the block builds or checks. Its meaning is the block's part of the exchange that carries it, the
accesses R171 and R172 list, run one after another: for a request the operand writes and the build, for a response RXFRAME
of its bytes (R77) and the check (log entry 5). -/

namespace Sys2Proof.Machine

open Sys2Proof

/-- R77: the pushes of RXFRAME, in order. -/
def Block.rxPushAll (xs : List Byte) (b : Block) : Block := xs.foldl (fun acc x => acc.rxPush x) b

/-- R77: RXFRAME, RX_CLEAR and then one push a byte. -/
def Block.rxFrame (xs : List Byte) (b : Block) : Block := b.rxClear.rxPushAll xs

/-- R77: the pushes of TXFRAME, in order. -/
def Block.txPushAll (xs : List Byte) (b : Block) : Block := xs.foldl (fun acc x => acc.txPush x) b

/-- R77: TXFRAME, TX_CLEAR and then one push a byte. -/
def Block.txFrame (xs : List Byte) (b : Block) : Block := b.txClear.txPushAll xs

/-- R171: SETNODE, SETREG, SETVAL, BUILD_WRITE. -/
def Block.requestWrite (n : Byte) (a : Half) (v : Word) (b : Block) : Block :=
  (((b.writeNode (n.setWidth 32)).writeRegaddr (a.setWidth 32)).writeWvalue v).buildWrite

/-- R172: SETNODE, SETREG, BUILD_READ. -/
def Block.requestRead (n : Byte) (a : Half) (b : Block) : Block :=
  ((b.writeNode (n.setWidth 32)).writeRegaddr (a.setWidth 32)).buildRead

/-- R81: a write request is built. -/
def execFrameWriteRequest (n : Byte) (a : Half) (v : Word) (s : State) : Host.Outcome State Fault Refusal :=
  s.complete (Block.requestWrite n a v)

/-- R82: a write response is received and checked. -/
def execFrameWriteResponse (n : Byte) (a crc : Half) (s : State) : Host.Outcome State Fault Refusal :=
  s.complete fun b => (b.rxFrame (writeResponse n a crc)).checkWrite

/-- R83: a read request is built. -/
def execFrameReadRequest (n : Byte) (a : Half) (s : State) : Host.Outcome State Fault Refusal :=
  s.complete (Block.requestRead n a)

/-- R84: a read response is received and parsed. -/
def execFrameReadResponse (n func count : Byte) (v : Word) (crc : Half) (s : State) :
    Host.Outcome State Fault Refusal :=
  s.complete fun b => (b.rxFrame (readResponse n func count v crc)).parseRead

end Sys2Proof.Machine
end

