-- ==== Sys2Proof/Machine/Dispatch.lean ====
section
/-! DEFINITION. One arm per row of the opcode table. -/

namespace Sys2Proof.Machine

def exec (i : Instr) (s : State) : Host.Outcome State Fault Refusal :=
  match i with
  | .nop => Sys2Proof.Machine.execNop s
  | .crcInit => Sys2Proof.Machine.execCrcInit s
  | .crcByte b => Sys2Proof.Machine.execCrcByte b s
  | .buildWrite => Sys2Proof.Machine.execBuildWrite s
  | .buildRead => Sys2Proof.Machine.execBuildRead s
  | .txClear => Sys2Proof.Machine.execTxClear s
  | .txPush b => Sys2Proof.Machine.execTxPush b s
  | .txAppendCrc => Sys2Proof.Machine.execTxAppendCrc s
  | .rxClear => Sys2Proof.Machine.execRxClear s
  | .rxPush b => Sys2Proof.Machine.execRxPush b s
  | .rxVerifyCrc => Sys2Proof.Machine.execRxVerifyCrc s
  | .checkWrite => Sys2Proof.Machine.execCheckWrite s
  | .parseRead => Sys2Proof.Machine.execParseRead s
  | .frameWriteRequest n a v => Sys2Proof.Machine.execFrameWriteRequest n a v s
  | .frameWriteResponse n a crc => Sys2Proof.Machine.execFrameWriteResponse n a crc s
  | .frameReadRequest n a => Sys2Proof.Machine.execFrameReadRequest n a s
  | .frameReadResponse n func count v crc => Sys2Proof.Machine.execFrameReadResponse n func count v crc s

end Sys2Proof.Machine
end

