-- ==== Sys2Proof/Machine/Bus.lean ====
section
/-! DEFINITION. The host port: reads and writes of the register window (spec/20_memory.md R52 to R58), and what each host
event does. -/

namespace Sys2Proof.Machine

open Sys2Proof

/-- R63: the bus address of an offset of the window, from the parameter BLOCK_BASE. -/
def busAddress (blockBase off : Nat) : Nat := blockBase + off

/-- R63: the offset a bus address has in the window; none for an address below or past it. -/
def windowOffset (blockBase addr : Nat) : Option Nat :=
  if blockBase ≤ addr ∧ addr < blockBase + Config.windowSize then some (addr - blockBase) else none

/-- R52 to R55: a host read. It changes no field of the block. -/
def hostRead (width off : Nat) (s : State) : State :=
  if off < Config.windowSize then
    if accessLegal width off then
      match regAt off with
      | some r => { s with response := .data (readReg r s.block) }
      | none => s.refuseAccess off
    else s.refuseAccess off
  else { s with response := .platform off }

/-- R70: a word written to CMD runs the command it decodes to, or R161. -/
def runCommand (w : Word) (s : State) : Host.Outcome State Fault Refusal :=
  match decodeCommand w with
  | .ok i => exec i s
  | .error _ => s.complete Block.illegalCommand

/-- R54, R56: a write of a mapped register. -/
def writeReg (r : BlockReg) (off : Nat) (v : Word) (s : State) : Host.Outcome State Fault Refusal :=
  match r with
  | .cmd => runCommand v { s with response := .done }
  | .node => .next { s with block := s.block.writeNode v, response := .done }
  | .regaddr => .next { s with block := s.block.writeRegaddr v, response := .done }
  | .wvalue => .next { s with block := s.block.writeWvalue v, response := .done }
  | .status | .crc | .rdval | .rdbc | .txbuf _ | .rxbuf _ | .expbuf _ => .next (s.refuseAccess off)

/-- R52 to R54, R56: a host write. -/
def hostWrite (width off : Nat) (v : Word) (s : State) : Host.Outcome State Fault Refusal :=
  if off < Config.windowSize then
    if accessLegal width off then
      match regAt off with
      | some r => writeReg r off v s
      | none => .next (s.refuseAccess off)
    else .next (s.refuseAccess off)
  else .next { s with response := .platform off }

/-- A frame given whole runs the instruction it decodes to. -/
def runFrame (bytes : List Byte) (s : State) : Host.Outcome State Fault Refusal :=
  match decodeFrame bytes with
  | .ok i => exec i { s with response := .done }
  | .error _ => .refused (.notAFrame bytes.length)

/-- What one host event does. -/
def hostEvent (e : HostEvent) (s : State) : Host.Outcome State Fault Refusal :=
  match e with
  | .read width off => .next (hostRead width off s)
  | .write width off v => hostWrite width off v s
  | .frame bytes => runFrame bytes s
  | .reset => .next s.resetBlock
  | .wait _ => .next { s with response := .none }

/-- The machine takes the oldest pending event; with none pending the block keeps its state (R213). -/
def takeEvent (s : State) : Host.Outcome State Fault Refusal :=
  match s.pending with
  | [] => .next s
  | e :: rest => hostEvent e { s with pending := rest }

/-- The host event that gives the machine an instruction: a CMD write, or the frame. -/
def eventOfRaw : RawInstr → HostEvent
  | .command w => .write Config.busBytes 0x00 w
  | .frame bytes => .frame bytes

end Sys2Proof.Machine
end

