-- ==== Sys2Proof/Machine/Step.lean ====
section
/-! DEFINITION. One step: the oldest pending host event (Machine/Bus.lean). -/

namespace Sys2Proof.Machine

open Sys2Proof

/-- One step of the machine (spec/00_scope.md R18: the block's steps are the host's bus accesses). -/
def step (s : State) : Host.Outcome State Fault Refusal := takeEvent s

/-- The state whose very next step runs the instruction of an opcode-table word: the host does it next (log entry 1). -/
def State.withFetchWord (s : State) (nbits w : Nat) : State :=
  { s with pending := eventOfRaw (rawOfTableWord nbits w) :: s.pending }

end Sys2Proof.Machine
end

