-- ==== Sys2Proof/Machine/HostContract.lean ====
section
/-! DEFINITION. The host's contract (spec/48_host_protocol.md): what the software around the block must do, as lists of
host events that the machine's own step runs. It is no behaviour of the block (spec/00_scope.md R6); the Transport's
answers are arguments (R18, log entry 10). Left out, as R7 says: the Transport itself, the Device Profile store, the
command line. -/

namespace Sys2Proof.Machine

open Sys2Proof

/-- `WR off, v` of R76. -/
def wr (off : Nat) (v : Word) : HostEvent := .write Config.busBytes off v

/-- `RD off` of R76. -/
def rd (off : Nat) : HostEvent := .read Config.busBytes off

/-- R76: an instruction stands for the event that gives it to the machine, for a command `WR 0x00, <word>`. -/
def issue (i : Instr) : HostEvent := eventOfRaw (encode i)

/-- R77: `SETNODE n`. -/
def setNode (n : Byte) : HostEvent := wr 0x08 (n.setWidth 32)

/-- R77: `SETREG a`. -/
def setReg (a : Half) : HostEvent := wr 0x0C (a.setWidth 32)

/-- R77: `SETVAL v`. -/
def setVal (v : Word) : HostEvent := wr 0x10 v

/-- R77: `RXFRAME b0, …, bk`. -/
def rxFrameEvents (bs : List Byte) : List HostEvent := issue .rxClear :: bs.map fun b => issue (.rxPush b)

/-- R77: `TXFRAME b0, …, bk`. -/
def txFrameEvents (bs : List Byte) : List HostEvent := issue .txClear :: bs.map fun b => issue (.txPush b)

/-- R64, R171: the host reads TXBUF_0 to TXBUF_(k-1). -/
def readTxEvents (k : Nat) : List HostEvent := (List.range k).map fun i => rd (0x40 + 4 * i)

/-- The machine runs a list of events, each by one step, ahead of what is pending; it stops at the first event that gives
no next state. -/
def runEvents : List HostEvent → State → Host.Outcome State Fault Refusal
  | [], s => .next s
  | e :: es, s =>
    match step { s with pending := e :: s.pending } with
    | .next t => runEvents es t
    | .fault r => .fault r
    | .refused r => .refused r

/-- R184: the exit codes, in the source's order; their numbers are not in the source (91_not_in_source.md N9). -/
inductive ExitCode where
  | noError
  | missingArguments
  | invalidCommand
  | invalidArgument
  | profileOpenFailure
  | profileWriteFailure
  | profileReadFailure
  | profileRemoveFailure
  | transportError
  | invalidResponse
  | invalidCrc
deriving DecidableEq, Repr

/-- R184: the exit code of a block outcome. CMD_ERROR has none: a host that follows R171 and R172 never reaches it. -/
def exitOfErr : Err → Option ExitCode
  | .ok => some .noError
  | .invalidResponse => some .invalidResponse
  | .invalidCrc => some .invalidCrc
  | .cmdError => none

/-- R16, R170: one request and its response. -/
inductive Exchange where
  | write (addr : Half) (value : Word)
  | read (addr : Half)
deriving DecidableEq, Repr

/-- What the Transport does for one exchange (R64, R171, R173): it fails to send, it fails or times out on the response,
or it returns bytes. A free input. -/
inductive TransportAnswer where
  | sendFailed
  | readFailed
  | bytes (received : List Byte)
deriving DecidableEq, Repr

/-- R171, R172: the accesses up to the request's bytes being read for sending. -/
def requestEvents (node : Byte) : Exchange → List HostEvent
  | .write a v => [setNode node, setReg a, setVal v, issue .buildWrite] ++ readTxEvents Config.writeRequestLength
  | .read a => [setNode node, setReg a, issue .buildRead] ++ readTxEvents Config.readRequestLength

/-- R171, R172: the check of the response. -/
def checkOf : Exchange → Instr
  | .write _ _ => .checkWrite
  | .read _ => .parseRead

/-- R171, R172: the accesses from the received bytes on, and STATUS read. -/
def responseEvents (x : Exchange) (received : List Byte) : List HostEvent :=
  rxFrameEvents received ++ [issue (checkOf x), rd 0x04]

/-- R171, R172: all the accesses of an exchange. Of a response the host asks for RX_READ_MAX bytes at most. -/
def exchangeEvents (p : HostParams) (node : Byte) (x : Exchange) : TransportAnswer → List HostEvent
  | .sendFailed | .readFailed => requestEvents node x
  | .bytes received => requestEvents node x ++ responseEvents x (received.take p.rxReadMax)

/-- R32, R36: the outcome that a STATUS word shows in bits [1:0]. -/
def errOfStatus (status : Word) : Err :=
  match (status.extractLsb' 0 2).toNat with
  | 0 => .ok
  | 1 => .invalidResponse
  | 2 => .invalidCrc
  | _ => .cmdError

/-- R175, R184, R230: how an exchange ended, from the STATUS word the host has just read; none for CMD_ERROR. -/
def exchangeExit (t : State) : TransportAnswer → Option ExitCode
  | .sendFailed | .readFailed => some .transportError
  | .bytes _ =>
    match t.response with
    | .data status => exitOfErr (errOfStatus status)
    | .none | .done | .fault _ | .platform _ => none

/-- R230: what a good read exchange gives the host beside its outcome: RDVAL, and RDBC as received, not compared. -/
structure ReadResult where
  rdval : Word
  rdbc  : Byte
deriving DecidableEq, Repr

/-- R172, R230: what the host reads after a good exchange, RDVAL and RDBC after a read, in the order of program P2 of
95_test_vectors.md, and nothing after a write (log entry 15). -/
def resultOffsets : Exchange → List Nat
  | .write _ _ => []
  | .read _ => [0x18, 0x1C]

/-- The words 32-bit reads at some offsets give the host, each read by one step, and the state after them; none where a
read gives no word. -/
def readWords : List Nat → State → Option (List Word × State)
  | [], s => some ([], s)
  | off :: offs, s =>
    match runEvents [rd off] s with
    | .next t =>
      match t.response with
      | .data w => (readWords offs t).map fun r => (w :: r.1, r.2)
      | .none | .done | .fault _ | .platform _ => none
    | .fault _ | .refused _ => none

/-- R230: the result that the words read after a good exchange stand for. RDBC is in bits [7:0] of its word (R43). -/
def exchangeResult : List Word → List ReadResult
  | [rdval, rdbc] => [{ rdval := rdval, rdbc := rdbc.extractLsb' 0 8 }]
  | _ => []

/-- How a sequence of exchanges ended. -/
inductive HostResult where
  /-- The host's exit code, the results of the good reads (R230), oldest first, and the machine's state. -/
  | ended (code : ExitCode) (results : List ReadResult) (s : State)
  /-- CMD_ERROR, for which R184 has no exit code (log entry 11). -/
  | commandError (s : State)
  /-- An event gave no next state, or a read no word. -/
  | stopped
deriving DecidableEq, Repr

/-- R170, R174, R175, R230: exchanges one after another, ending at the first that does not end well. `lead` is what the
host does before the first of them; between two of them it waits INTER_CMD_DELAY. One answer of the Transport for each; a
missing one is a failure to send. -/
def runExchanges (p : HostParams) (node : Byte) (lead : List HostEvent) :
    List Exchange → List TransportAnswer → List ReadResult → State → HostResult
  | [], _, results, s => .ended .noError results s
  | x :: xs, answers, results, s =>
    match runEvents (lead ++ exchangeEvents p node x (answers.headD .sendFailed)) s with
    | .next t =>
      match exchangeExit t (answers.headD .sendFailed) with
      | some .noError =>
        match readWords (resultOffsets x) t with
        | some (words, u) =>
          runExchanges p node [.wait p.interCmdDelay] xs answers.tail (results ++ exchangeResult words) u
        | none => .stopped
      | some code => .ended code results t
      | none => .commandError t
    | .fault _ | .refused _ => .stopped

/-- R179: the load's modes. -/
inductive LoadMode where
  | constantVoltage
  | constantCurrent
  | constantResistance
  | constantPower
deriving DecidableEq, Repr

/-- R179: the wire value of a mode. -/
def LoadMode.code : LoadMode → Word
  | .constantVoltage => 0
  | .constantCurrent => 1
  | .constantResistance => 2
  | .constantPower => 3

/-- R179: the letter of a mode. -/
def LoadMode.letter : LoadMode → Char
  | .constantVoltage => 'v'
  | .constantCurrent => 'c'
  | .constantResistance => 'r'
  | .constantPower => 'p'

/-- R179, R183: the printed label of a mode. -/
def LoadMode.label : LoadMode → String
  | .constantVoltage => "CV"
  | .constantCurrent => "CC"
  | .constantResistance => "CR"
  | .constantPower => "CP"

/-- R181 with decision D39: the mode index is the value's last byte on the wire; above 3 there is none. -/
def LoadMode.ofValue (v : Word) : Option LoadMode :=
  match (v.extractLsb' 0 8).toNat with
  | 0 => some .constantVoltage
  | 1 => some .constantCurrent
  | 2 => some .constantResistance
  | 3 => some .constantPower
  | _ => none

/-- R180: the scale factor of the mode's setting register. -/
def LoadMode.scale : LoadMode → Nat
  | .constantVoltage => 1000
  | .constantCurrent => 1000
  | .constantResistance => 10
  | .constantPower => 100

/-- R178: the setting register of a mode. -/
def LoadMode.settingRegister (p : HostParams) : LoadMode → Half
  | .constantVoltage => p.regSetV
  | .constantCurrent => p.regSetC
  | .constantResistance => p.regSetR
  | .constantPower => p.regSetP

/-- R180 with decision D38 and 93_implementation_defined.md I18: the wire integer of a user value; none (invalid-argument)
for a negative value and for a result outside 0 to 0xFFFFFFFF. -/
def wireInteger (p : HostParams) (x : Decimal) (scale : Nat) : Option Word :=
  let w := p.scaleConvert x scale
  if 0 ≤ x.mantissa ∧ 0 ≤ w ∧ w ≤ 0xFFFFFFFF then some (BitVec.ofInt 32 w) else none

/-- R182: a measurement in thousandths of its unit, signed or not as VALUE_SIGNED says (D36). -/
def measurement (p : HostParams) (r : Word) : Int := if p.valueSigned then r.toInt else (r.toNat : Int)

/-- Three decimal digits of a number below 1000. -/
def threeDigits (n : Nat) : String :=
  toString (n / 100 % 10) ++ toString (n / 10 % 10) ++ toString (n % 10)

/-- R182: a measurement shown as r / 1000 with 3 decimals (the sign of a negative one is log entry 12). -/
def showMeasurement (r : Int) : String :=
  (if r < 0 then "-" else "") ++ toString (r.natAbs / 1000) ++ "." ++ threeDigits (r.natAbs % 1000)

/-- R183: what ReadStatus prints. -/
def statusLine (m : LoadMode) (voltage current : Int) : String :=
  "MODE: " ++ m.label ++ " - REAL_VOLTAGE: " ++ showMeasurement voltage ++ "V - REAL_CURRENT: " ++
    showMeasurement current ++ "A"

/-- R177: Switch(on|off), one exchange. -/
def switchExchanges (on : Bool) : List Exchange := [.write Config.onOffRegister (if on then 1 else 0)]

/-- R178: SetMode(mode, value), two exchanges; none where the value is refused (R180). -/
def setModeExchanges (p : HostParams) (m : LoadMode) (x : Decimal) : Option (List Exchange) :=
  (wireInteger p x m.scale).map fun w => [.write p.regMode m.code, .write (m.settingRegister p) w]

/-- R177: Switch. -/
def runSwitch (p : HostParams) (node : Byte) (on : Bool) (answers : List TransportAnswer) (s : State) : HostResult :=
  runExchanges p node [] (switchExchanges on) answers [] s

/-- R178: SetMode. A refused value ends it with invalid-argument before any access (R184 (a)). -/
def runSetMode (p : HostParams) (node : Byte) (m : LoadMode) (x : Decimal) (answers : List TransportAnswer) (s : State) :
    HostResult :=
  match setModeExchanges p m x with
  | some xs => runExchanges p node [] xs answers [] s
  | none => .ended .invalidArgument [] s

/-- R181: ReadStatus, three exchanges; a mode byte above 3 ends it after the first with invalid-response. -/
def runReadStatus (p : HostParams) (node : Byte) (answers : List TransportAnswer) (s : State) : HostResult :=
  match runExchanges p node [] [.read p.regMode] answers [] s with
  | .ended .noError [mode] t =>
    match LoadMode.ofValue mode.rdval with
    | none => .ended .invalidResponse [mode] t
    | some _ =>
      runExchanges p node [.wait p.interCmdDelay] [.read p.regMeasV, .read p.regMeasC] answers.tail [mode] t
  | result => result

/-- R183: the line ReadStatus prints for its three results; none for another number of them or a mode above 3. -/
def readStatusLine (p : HostParams) : List ReadResult → Option String
  | [mode, voltage, current] =>
    (LoadMode.ofValue mode.rdval).map fun m =>
      statusLine m (measurement p voltage.rdval) (measurement p current.rdval)
  | _ => none

end Sys2Proof.Machine
end

