-- ==== Sys2Proof/Safety.lean ====
section
/-! DEFINITION. What counts as a safe state and a safe run. -/

namespace Sys2Proof.Machine

/-- The invariant of every reachable block (spec/10_state.md R28, R29, R40, R46; spec/40_crc.md R105). -/
structure Block.Inv (b : Block) : Prop where
  /-- R40. -/
  txlen_le : b.txlen ≤ 16
  /-- R40. -/
  rxcnt_le : b.rxcnt ≤ 16
  /-- R46: TXBUF is zero at and past TXLEN. -/
  tx_zero_fill : ∀ i : Fin 16, b.txlen ≤ i.val → b.txbuf[i] = 0
  /-- R46: RXBUF is zero at and past RXCNT. -/
  rx_zero_fill : ∀ i : Fin 16, b.rxcnt ≤ i.val → b.rxbuf[i] = 0
  /-- R29, R144: a byte was discarded only when the buffer was full, and it stays full. -/
  overflow_full : b.rxovf = true → b.rxcnt = 16
  /-- R105: CRC is 0xFFFF or a value reached from it by CRC_BYTE steps. -/
  crc_reached : ∃ xs, b.crc = crc16 xs
  /-- R28, R123: a valid expected response is the one of some write build. -/
  expected_built : b.expvalid = true → ∃ n a, b.expbuf = bufferOf 9 (writeExpected n a)

/-- The invariant of every reachable state of the machine. -/
abbrev State.Inv (s : State) : Prop := s.block.Inv

/-- The host event that the machine refuses: a byte string that is no frame. Every other event gives a next state. -/
def HostEvent.understood : HostEvent → Bool
  | .frame bytes => (decodeFrame bytes).isOk
  | .read _ _ | .write _ _ _ | .reset | .wait _ => true

/-- A run is safe as long as everything the host has pending is understood. -/
def State.safe (s : State) : Bool := s.pending.all HostEvent.understood

end Sys2Proof.Machine
end

