-- ==== Sys2Proof/Certificates/Slice0/Obligations.lean ====
section
/-! DEFINITION. The statements for the provers. Offsets are bytes from BLOCK_BASE. A statement that rests on a choice of
the model names its log entry. -/

open Sys2Proof
open Sys2Proof.Machine

/-- Every row of the command table and a frame of each kind decode to what they stand for (30_encoding.md R72, R73, R76, 30_encoding.md R81 to R84, 95_test_vectors.md T7, V-BLD-2, V-CHK-1). Model's choice: log entry 6. -/
def Obligations.SpecWordsDecode : Prop :=
  decodeCommand 0x00000000 = .ok .nop ∧ decodeCommand 0x00000001 = .ok .crcInit ∧
  decodeCommand 0x00000010 = .ok .buildWrite ∧ decodeCommand 0x00000011 = .ok .buildRead ∧
  decodeCommand 0x00000012 = .ok .txClear ∧ decodeCommand 0x00000014 = .ok .txAppendCrc ∧
  decodeCommand 0x00000020 = .ok .rxClear ∧ decodeCommand 0x00000022 = .ok .rxVerifyCrc ∧
  decodeCommand 0x00000023 = .ok .checkWrite ∧ decodeCommand 0x00000024 = .ok .parseRead ∧
  (∀ b : Byte,
    decodeCommand ((b ++ 0x02#8).setWidth 32) = .ok (.crcByte b) ∧
    decodeCommand ((b ++ 0x13#8).setWidth 32) = .ok (.txPush b) ∧
    decodeCommand ((b ++ 0x21#8).setWidth 32) = .ok (.rxPush b)) ∧
  decode (.frame [0x05, 0x06, 0x01, 0x0E, 0x00, 0x01, 0x04, 0x00, 0x00, 0x00, 0x01, 0xFA, 0x4A]) =
    .ok (.frameWriteRequest 0x05 0x010E 0x00000001) ∧
  decode (.frame [0x05, 0x06, 0x01, 0x0E, 0x00, 0x01, 0x04, 0x1D, 0x71]) =
    .ok (.frameWriteResponse 0x05 0x010E 0x1D71) ∧
  decode (.frame [0x05, 0x03, 0x01, 0x0E, 0x00, 0x04, 0xB2, 0x25]) = .ok (.frameReadRequest 0x05 0x010E) ∧
  decode (.frame [0x05, 0x03, 0x04, 0x00, 0x00, 0x05, 0xDC, 0x3A, 0xBD]) =
    .ok (.frameReadResponse 0x05 0x03 0x04 0x000005DC 0x3ABD)

/-- A command word is legal exactly when the three tests hold, and the masks select the command (R74). -/
def Obligations.LegalWordsAreSelectedByMask : Prop :=
  ∀ w : Word,
    ((∃ i, decodeCommand w = .ok i) ↔
      w.extractLsb' 0 8 ∈ [0x00#8, 0x01#8, 0x02#8, 0x10#8, 0x11#8, 0x12#8, 0x13#8, 0x14#8, 0x20#8, 0x21#8, 0x22#8, 0x23#8,
        0x24#8] ∧
      w.extractLsb' 16 16 = 0#16 ∧
      (w.extractLsb' 8 8 = 0#8 ∨ w.extractLsb' 0 8 ∈ [0x02#8, 0x13#8, 0x21#8])) ∧
    (∀ p ∈ [(0x00#32, Instr.nop), (0x01#32, .crcInit), (0x10#32, .buildWrite), (0x11#32, .buildRead), (0x12#32, .txClear),
        (0x14#32, .txAppendCrc), (0x20#32, .rxClear), (0x22#32, .rxVerifyCrc), (0x23#32, .checkWrite),
        (0x24#32, .parseRead)],
      decodeCommand w = .ok p.2 ↔ w &&& 0xFFFFFFFF#32 = p.1) ∧
    ((∃ b, decodeCommand w = .ok (.crcByte b)) ↔ w &&& 0xFFFF00FF#32 = 0x02#32) ∧
    ((∃ b, decodeCommand w = .ok (.txPush b)) ↔ w &&& 0xFFFF00FF#32 = 0x13#32) ∧
    ((∃ b, decodeCommand w = .ok (.rxPush b)) ↔ w &&& 0xFFFF00FF#32 = 0x21#32)

/-- Decoding what the encoder writes gives the instruction back (30_encoding.md R71 to R76, 30_encoding.md R80 to R85). Model's choice: log entry 6. -/
def Obligations.DecodeOfEncode : Prop :=
  ∀ i : Instr, i.wellFormed = true → decode (encode i) = .ok i

/-- Every word and every frame has one meaning, and no bit of it is dropped (30_encoding.md R71 to R76, 30_encoding.md R80 to R85). Model's choice: log entry 6. -/
def Obligations.EncodeOfDecode : Prop :=
  ∀ (r : RawInstr) (i : Instr), decode r = .ok i → i.wellFormed = true ∧ encode i = r

/-- A word written to CMD runs the command it decodes to, or the illegal-command rule (R70). -/
def Obligations.StepRunsTheCommandWord : Prop :=
  ∀ (s : State) (w : Word) (rest : List HostEvent), s.pending = .write 4 0x00 w :: rest →
    step s =
      match decodeCommand w with
      | .ok i => exec i { s with pending := rest, response := .done }
      | .error _ => .next { s with pending := rest, response := .done, block := { s.block with err := .cmdError } }

/-- A step runs the instruction that is pending, and an opcode-table word placed for it (30_encoding.md R70, 10_state.md R21). Model's choice: log entries 5 and 7. -/
def Obligations.StepRunsTheDecodedInstruction : Prop :=
  (∀ (r : RawInstr) (i : Instr) (s : State) (rest : List HostEvent), decode r = .ok i →
    s.pending = eventOfRaw r :: rest → step s = exec i { s with pending := rest, response := .done }) ∧
  (∀ (nbits w : Nat) (i : Instr) (s : State), decodeTableWord nbits w = some i →
    step (s.withFetchWord nbits w) = exec i { s with response := .done })

/-- An illegal command word sets ERR to CMD_ERROR and changes nothing else (R161). -/
def Obligations.IllegalWordChangesOnlyErr : Prop :=
  (∀ (w : Word) (s : State) (rest : List HostEvent), (∀ i, decodeCommand w ≠ .ok i) →
    s.pending = .write 4 0x00 w :: rest →
    step s = .next { s with block := { s.block with err := .cmdError }, pending := rest, response := .done }) ∧
  ∀ w ∈ [0x00000100#32, 0x00010000#32, 0x000000FF#32, 0xFFFFFFFF#32, 0x00000003#32], ∀ i, decodeCommand w ≠ .ok i

/-- After reset every field of the block has the value of the reset table (R45). -/
def Obligations.ResetValues : Prop :=
  State.reset.block.crc = 0xFFFF ∧ State.reset.block.node = 0x00 ∧ State.reset.block.regaddr = 0x0000 ∧
  State.reset.block.wvalue = 0x00000000 ∧ (∀ i : Fin 16, State.reset.block.txbuf[i] = 0x00) ∧
  State.reset.block.txlen = 0 ∧ (∀ i : Fin 9, State.reset.block.expbuf[i] = 0x00) ∧
  State.reset.block.expvalid = false ∧ (∀ i : Fin 16, State.reset.block.rxbuf[i] = 0x00) ∧
  State.reset.block.rxcnt = 0 ∧ State.reset.block.rxovf = false ∧ State.reset.block.rdval = 0x00000000 ∧
  State.reset.block.rdbc = 0x00 ∧ State.reset.block.err = .ok ∧ State.reset.block.crcok = false

/-- The reset event sets every block field to its reset value in one step (70_reset_and_hazards.md R220, 10_state.md R45). Model's choice: log entry 9. -/
def Obligations.ResetEventResetsTheBlock : Prop :=
  ∀ (s : State) (rest : List HostEvent), s.pending = .reset :: rest →
    step s = .next { block := State.reset.block, pending := rest, response := .none }

/-- crc_step is the XOR and the eight conditional shifts (R100). -/
def Obligations.CrcStepIsTheLoop : Prop :=
  (∀ (c : Half) (b : Byte),
    crcStep c b =
      (fun r : Half => if r.getLsbD 0 = true then (r >>> 1) ^^^ 0xA001#16 else r >>> 1)^[8] (c ^^^ b.setWidth 16)) ∧
  crcStep 0xFFFF 0x01 = 0x807E ∧ crcStep 0xFFFF 0x00 = 0x40BF ∧ crcStep 0x0000 0x00 = 0x0000

/-- crc16 starts at 0xFFFF, takes the bytes in order and returns the register as it stands (R101). -/
def Obligations.Crc16TakesTheBytesInOrder : Prop :=
  crc16 [] = 0xFFFF ∧ (∀ (xs : List Byte) (x : Byte), crc16 (xs ++ [x]) = crcStep (crc16 xs) x) ∧
  crc16 [0x31, 0x32, 0x33, 0x34, 0x35, 0x36, 0x37, 0x38, 0x39] = 0x4B37

/-- A byte list with its CRC appended verifies (R107). -/
def Obligations.AppendThenVerify : Prop :=
  ∀ xs : List Byte, verifyCrc (appendCrc xs) = true

/-- A byte list verifies exactly when it is some list with its CRC appended high byte first (40_crc.md R102, 40_crc.md R103). -/
def Obligations.VerifiedListsAreTheAppendedOnes : Prop :=
  (∀ xs : List Byte, verifyCrc xs = true ↔
    ∃ ys : List Byte, xs = ys ++ [(crc16 ys).extractLsb' 8 8, (crc16 ys).extractLsb' 0 8]) ∧
  ∀ xs : List Byte, xs.length < 2 → verifyCrc xs = false

/-- Altering any one covered byte of a verifying frame makes it fail (R109). -/
def Obligations.AlteredByteFailsTheCrc : Prop :=
  ∀ (f : List Byte) (k : Nat) (x : Byte), verifyCrc f = true → k + 2 < f.length → x ≠ f.getD k 0 →
    verifyCrc (f.set k x) = false

/-- CRC_INIT and then CRC_BYTE for each byte leaves crc16 of the bytes in CRC (R106). -/
def Obligations.StreamingEqualsBatch : Prop :=
  ∀ (xs : List Byte) (s : State),
    ∃ t, runEvents (issue .crcInit :: xs.map fun x => issue (.crcByte x)) s = .next t ∧
      t.block = { s.block with crc := crc16 xs, err := .ok } ∧ t.pending = s.pending

/-- NOP clears ERR and leaves everything else (43_control.md R160). -/
def Obligations.NopResult : Prop :=
  ∀ s : State,
    (∀ w, decodeCommand w = .ok .nop ↔ w = 0x00000000) ∧ exec .nop s = .next { s with block := { s.block with err := .ok } }

/-- CRC_INIT sets CRC to 0xFFFF (R104). -/
def Obligations.CrcInitResult : Prop :=
  ∀ s : State,
    (∀ w, decodeCommand w = .ok .crcInit ↔ w = 0x00000001) ∧
    exec .crcInit s = .next { s with block := { s.block with crc := 0xFFFF, err := .ok } } ∧
    exec .crcInit { s with block := { s.block with crc := 0xFFFF, err := .ok } } =
      .next { s with block := { s.block with crc := 0xFFFF, err := .ok } }

/-- CRC_BYTE b puts one byte through the CRC register (40_crc.md R105). -/
def Obligations.CrcByteResult : Prop :=
  (∀ (s : State) (b : Byte),
    (∀ w, decodeCommand w = .ok (.crcByte b) ↔ w = (b ++ 0x02#8).setWidth 32) ∧
    exec (.crcByte b) s = .next { s with block := { s.block with crc := crcStep s.block.crc b, err := .ok } }) ∧
  crcStep 0xFFFF 0x31 = 0x947E

/-- BUILD_WRITE builds the 13-byte request and the 9-byte expected response (R123, R81, R82). -/
def Obligations.BuildWriteResult : Prop :=
  ∀ s : State, (∀ w, decodeCommand w = .ok .buildWrite ↔ w = 0x00000010) ∧
    ∃ t, exec .buildWrite s = .next t ∧
      (let n := s.block.node
       let a := s.block.regaddr
       let v := s.block.wvalue
       let head : List Byte := [n, 0x06, a.extractLsb' 8 8, a.extractLsb' 0 8, 0x00, 0x01, 0x04]
       let body : List Byte :=
         head ++ [v.extractLsb' 24 8, v.extractLsb' 16 8, v.extractLsb' 8 8, v.extractLsb' 0 8]
       t.block.txbuf.toList =
         body ++ [(crc16 body).extractLsb' 8 8, (crc16 body).extractLsb' 0 8] ++ [0x00, 0x00, 0x00] ∧
       t.block.expbuf.toList = head ++ [(crc16 head).extractLsb' 8 8, (crc16 head).extractLsb' 0 8]) ∧
      t = { s with block := { s.block with
              txbuf := t.block.txbuf, txlen := 13, expbuf := t.block.expbuf, expvalid := true, err := .ok } }

/-- BUILD_READ builds the 8-byte request and drops the expected response's validity (R124, R83). -/
def Obligations.BuildReadResult : Prop :=
  ∀ s : State, (∀ w, decodeCommand w = .ok .buildRead ↔ w = 0x00000011) ∧
    ∃ t, exec .buildRead s = .next t ∧
      (let n := s.block.node
       let a := s.block.regaddr
       let body : List Byte := [n, 0x03, a.extractLsb' 8 8, a.extractLsb' 0 8, 0x00, 0x04]
       t.block.txbuf.toList =
         body ++ [(crc16 body).extractLsb' 8 8, (crc16 body).extractLsb' 0 8] ++
           [0x00, 0x00, 0x00, 0x00, 0x00, 0x00, 0x00, 0x00]) ∧
      t = { s with block := { s.block with
              txbuf := t.block.txbuf, txlen := 8, expvalid := false, err := .ok } } ∧
      (∀ v, exec .buildRead { s with block := { s.block with wvalue := v } } =
        .next { t with block := { t.block with wvalue := v } }) ∧
      exec .checkWrite t = .next { t with block := { t.block with err := .cmdError } }

/-- TX_CLEAR zeroes the request buffer (R125). -/
def Obligations.TxClearResult : Prop :=
  ∀ s : State, (∀ w, decodeCommand w = .ok .txClear ↔ w = 0x00000012) ∧
    ∃ t, exec .txClear s = .next t ∧ (∀ i : Fin 16, t.block.txbuf[i] = 0x00) ∧
      t = { s with block := { s.block with txbuf := t.block.txbuf, txlen := 0, err := .ok } }

/-- TX_PUSH b puts the byte at TXLEN, or reports a full buffer (R126). -/
def Obligations.TxPushResult : Prop :=
  ∀ (s : State) (b : Byte), (∀ w, decodeCommand w = .ok (.txPush b) ↔ w = (b ++ 0x13#8).setWidth 32) ∧
    (s.block.txlen < 16 → ∃ t, exec (.txPush b) s = .next t ∧
      (∀ i : Fin 16, t.block.txbuf[i] = if i.val = s.block.txlen then b else s.block.txbuf[i]) ∧
      t = { s with block := { s.block with txbuf := t.block.txbuf, txlen := s.block.txlen + 1, err := .ok } }) ∧
    (¬ s.block.txlen < 16 → exec (.txPush b) s = .next { s with block := { s.block with err := .cmdError } })

/-- TX_APPEND_CRC appends the CRC of the request buffer, or reports that there is no room (R127). -/
def Obligations.TxAppendCrcResult : Prop :=
  ∀ s : State, (∀ w, decodeCommand w = .ok .txAppendCrc ↔ w = 0x00000014) ∧
    (s.block.txlen ≤ 14 → ∃ t, exec .txAppendCrc s = .next t ∧
      (let c := crc16 (s.block.txbuf.toList.take s.block.txlen)
       ∀ i : Fin 16, t.block.txbuf[i] =
         if i.val = s.block.txlen then c.extractLsb' 8 8
         else if i.val = s.block.txlen + 1 then c.extractLsb' 0 8
         else s.block.txbuf[i]) ∧
      t = { s with block := { s.block with txbuf := t.block.txbuf, txlen := s.block.txlen + 2, err := .ok } } ∧
      ∀ c, exec .txAppendCrc { s with block := { s.block with crc := c } } =
        .next { t with block := { t.block with crc := c } }) ∧
    (¬ s.block.txlen ≤ 14 → exec .txAppendCrc s = .next { s with block := { s.block with err := .cmdError } })

/-- RX_CLEAR zeroes the receive buffer and the overflow flag (R143). -/
def Obligations.RxClearResult : Prop :=
  ∀ s : State, (∀ w, decodeCommand w = .ok .rxClear ↔ w = 0x00000020) ∧
    ∃ t, exec .rxClear s = .next t ∧ (∀ i : Fin 16, t.block.rxbuf[i] = 0x00) ∧
      t = { s with block := { s.block with rxbuf := t.block.rxbuf, rxcnt := 0, rxovf := false, err := .ok } }

/-- RX_PUSH b stores the byte at RXCNT, or records an overflow (42_frame_check.md R144). -/
def Obligations.RxPushResult : Prop :=
  ∀ (s : State) (b : Byte), (∀ w, decodeCommand w = .ok (.rxPush b) ↔ w = (b ++ 0x21#8).setWidth 32) ∧
    (s.block.rxcnt < 16 → ∃ t, exec (.rxPush b) s = .next t ∧
      (∀ i : Fin 16, t.block.rxbuf[i] = if i.val = s.block.rxcnt then b else s.block.rxbuf[i]) ∧
      t = { s with block := { s.block with rxbuf := t.block.rxbuf, rxcnt := s.block.rxcnt + 1, err := .ok } }) ∧
    (¬ s.block.rxcnt < 16 →
      exec (.rxPush b) s = .next { s with block := { s.block with rxovf := true, err := .ok } })

/-- RX_VERIFY_CRC checks the bytes received, at any length of two or more (R145). -/
def Obligations.RxVerifyCrcResult : Prop :=
  (∀ s : State, (∀ w, decodeCommand w = .ok .rxVerifyCrc ↔ w = 0x00000022) ∧
    (s.block.rxovf = true ∨ s.block.rxcnt < 2 →
      exec .rxVerifyCrc s = .next { s with block := { s.block with crcok := false, err := .invalidResponse } }) ∧
    (s.block.rxovf = false → 2 ≤ s.block.rxcnt →
      verifyCrc (s.block.rxbuf.toList.take s.block.rxcnt) = true →
      exec .rxVerifyCrc s = .next { s with block := { s.block with crcok := true, err := .ok } }) ∧
    (s.block.rxovf = false → 2 ≤ s.block.rxcnt →
      verifyCrc (s.block.rxbuf.toList.take s.block.rxcnt) = false →
      exec .rxVerifyCrc s = .next { s with block := { s.block with crcok := false, err := .invalidCrc } })) ∧
  verifyCrc [0xFF, 0xFF] = true ∧ verifyCrc [0x01, 0x80, 0x7E] = true

/-- CHECK_WRITE tests EXPVALID, then length, then CRC, then content (42_frame_check.md R146, 42_frame_check.md R142, 60_exceptions.md R202). -/
def Obligations.CheckWriteResult : Prop :=
  ∀ s : State, (∀ w, decodeCommand w = .ok .checkWrite ↔ w = 0x00000023) ∧
    (s.block.expvalid = false →
      exec .checkWrite s = .next { s with block := { s.block with err := .cmdError } }) ∧
    (s.block.expvalid = true → ¬ (s.block.rxovf = false ∧ s.block.rxcnt = 9) →
      exec .checkWrite s = .next { s with block := { s.block with crcok := false, err := .invalidResponse } }) ∧
    (s.block.expvalid = true → s.block.rxovf = false → s.block.rxcnt = 9 →
      verifyCrc (s.block.rxbuf.toList.take 9) = false →
      exec .checkWrite s = .next { s with block := { s.block with crcok := false, err := .invalidCrc } }) ∧
    (s.block.expvalid = true → s.block.rxovf = false → s.block.rxcnt = 9 →
      verifyCrc (s.block.rxbuf.toList.take 9) = true → s.block.rxbuf.toList.take 9 = s.block.expbuf.toList →
      exec .checkWrite s = .next { s with block := { s.block with crcok := true, err := .ok } }) ∧
    (s.block.expvalid = true → s.block.rxovf = false → s.block.rxcnt = 9 →
      verifyCrc (s.block.rxbuf.toList.take 9) = true → s.block.rxbuf.toList.take 9 ≠ s.block.expbuf.toList →
      exec .checkWrite s = .next { s with block := { s.block with crcok := true, err := .invalidResponse } })

/-- PARSE_READ tests length, then CRC, then gives the value (42_frame_check.md R147, 42_frame_check.md R140, 42_frame_check.md R142). -/
def Obligations.ParseReadResult : Prop :=
  ∀ s : State, (∀ w, decodeCommand w = .ok .parseRead ↔ w = 0x00000024) ∧
    (¬ (s.block.rxovf = false ∧ s.block.rxcnt = 9) →
      exec .parseRead s = .next { s with block := { s.block with crcok := false, err := .invalidResponse } }) ∧
    (s.block.rxovf = false → s.block.rxcnt = 9 → verifyCrc (s.block.rxbuf.toList.take 9) = false →
      exec .parseRead s = .next { s with block := { s.block with crcok := false, err := .invalidCrc } }) ∧
    (s.block.rxovf = false → s.block.rxcnt = 9 → verifyCrc (s.block.rxbuf.toList.take 9) = true →
      exec .parseRead s = .next { s with block := { s.block with
        crcok := true, err := .ok, rdbc := s.block.rxbuf[2],
        rdval := s.block.rxbuf[3] ++ s.block.rxbuf[4] ++ s.block.rxbuf[5] ++ s.block.rxbuf[6] } })

/-- A request frame leaves its own bytes in TXBUF (30_encoding.md R81, 30_encoding.md R83, 48_host_protocol.md R171, R172). Model's choice: log entry 5. -/
def Obligations.FrameRequestsAreBuilt : Prop :=
  (∀ (n : Byte) (a : Half) (v : Word) (s : State),
    ∃ t f, exec (.frameWriteRequest n a v) s = .next t ∧ encode (.frameWriteRequest n a v) = .frame f ∧
      t.block.txbuf.toList = f ++ [0x00, 0x00, 0x00] ∧ t.block.expbuf.toList = writeExpected n a ∧
      t = { s with block := { s.block with
              node := n, regaddr := a, wvalue := v, txbuf := t.block.txbuf, txlen := 13,
              expbuf := t.block.expbuf, expvalid := true, err := .ok } }) ∧
  (∀ (n : Byte) (a : Half) (s : State),
    ∃ t f, exec (.frameReadRequest n a) s = .next t ∧ encode (.frameReadRequest n a) = .frame f ∧
      t.block.txbuf.toList = f ++ List.replicate 8 0x00 ∧
      t = { s with block := { s.block with
              node := n, regaddr := a, txbuf := t.block.txbuf, txlen := 8, expvalid := false, err := .ok } })

/-- A write response frame is received whole and checked against EXPBUF (30_encoding.md R82, 48_host_protocol.md R171, 42_frame_check.md R146). Model's choice: log entry 5. -/
def Obligations.FrameWriteResponseIsChecked : Prop :=
  ∀ (n : Byte) (a crc : Half) (s : State),
    ∃ t f, exec (.frameWriteResponse n a crc) s = .next t ∧ encode (.frameWriteResponse n a crc) = .frame f ∧
      t.block.rxbuf.toList = f ++ List.replicate 7 0x00 ∧
      t = { s with block := { s.block with
              rxbuf := t.block.rxbuf, rxcnt := 9, rxovf := false,
              crcok := if s.block.expvalid = true then decide (crc = crc16 (f.take 7)) else s.block.crcok,
              err :=
                if s.block.expvalid = false then .cmdError
                else if crc ≠ crc16 (f.take 7) then .invalidCrc
                else if f = s.block.expbuf.toList then .ok else .invalidResponse } }

/-- A read response frame is received whole and parsed on length and CRC alone (30_encoding.md R84, 48_host_protocol.md R172, 42_frame_check.md R147, R149). Model's choice: log entry 5. -/
def Obligations.FrameReadResponseIsParsed : Prop :=
  ∀ (n func count : Byte) (v : Word) (crc : Half) (s : State),
    ∃ t f, exec (.frameReadResponse n func count v crc) s = .next t ∧
      encode (.frameReadResponse n func count v crc) = .frame f ∧
      t.block.rxbuf.toList = f ++ List.replicate 7 0x00 ∧
      t = { s with block := { s.block with
              rxbuf := t.block.rxbuf, rxcnt := 9, rxovf := false,
              crcok := decide (crc = crc16 (f.take 7)),
              rdbc := if crc = crc16 (f.take 7) then count else s.block.rdbc,
              rdval := if crc = crc16 (f.take 7) then v else s.block.rdval,
              err := if crc = crc16 (f.take 7) then .ok else .invalidCrc } }

/-- Running a frame row equals running the accesses it stands for, one step each (48_host_protocol.md R171, R172, 30_encoding.md R77). Model's choice: log entry 5. -/
def Obligations.FrameRowsEqualTheirAccesses : Prop :=
  ∀ s : State,
    (∀ n a v, ∃ t u, exec (.frameWriteRequest n a v) s = .next t ∧
      runEvents [setNode n, setReg a, setVal v, issue .buildWrite] s = .next u ∧ u.block = t.block) ∧
    (∀ n a, ∃ t u, exec (.frameReadRequest n a) s = .next t ∧
      runEvents [setNode n, setReg a, issue .buildRead] s = .next u ∧ u.block = t.block) ∧
    (∀ n a crc f, encode (.frameWriteResponse n a crc) = .frame f →
      ∃ t u, exec (.frameWriteResponse n a crc) s = .next t ∧
        runEvents (rxFrameEvents f ++ [issue .checkWrite]) s = .next u ∧ u.block = t.block) ∧
    (∀ n func count v crc f, encode (.frameReadResponse n func count v crc) = .frame f →
      ∃ t u, exec (.frameReadResponse n func count v crc) s = .next t ∧
        runEvents (rxFrameEvents f ++ [issue .parseRead]) s = .next u ∧ u.block = t.block)

/-- Every frame the block builds verifies (R129). -/
def Obligations.BuiltFramesVerify : Prop :=
  ∀ s : State,
    (∃ t, exec .buildWrite s = .next t ∧ verifyCrc (t.block.txbuf.toList.take 13) = true ∧
      verifyCrc (t.block.expbuf.toList.take 9) = true) ∧
    (∃ t, exec .buildRead s = .next t ∧ verifyCrc (t.block.txbuf.toList.take 8) = true) ∧
    (∃ t, exec .txAppendCrc s = .next t ∧
      (t.block.err = .ok → verifyCrc (t.block.txbuf.toList.take t.block.txlen) = true))

/-- RXFRAME leaves the first sixteen bytes, their count and whether one was lost (30_encoding.md R77, 42_frame_check.md R143, R144). -/
def Obligations.ReceivedFrameFillsTheBuffer : Prop :=
  ∀ (bs : List Byte) (s : State),
    ∃ t, runEvents (rxFrameEvents bs) s = .next t ∧
      t.block.rxbuf.toList = bs.take 16 ++ List.replicate (16 - bs.length) 0x00 ∧
      t.block = { s.block with
        rxbuf := t.block.rxbuf, rxcnt := min bs.length 16, rxovf := decide (16 < bs.length), err := .ok } ∧
      t.pending = s.pending

/-- TXFRAME and TX_APPEND_CRC leave the bytes with their CRC in TXBUF (30_encoding.md R77, 41_frame_build.md R125 to R127). -/
def Obligations.HandBuiltFrameIsAppended : Prop :=
  ∀ (bs : List Byte) (s : State), bs.length ≤ 14 →
    ∃ t, runEvents (txFrameEvents bs ++ [issue .txAppendCrc]) s = .next t ∧
      t.block.txbuf.toList = appendCrc bs ++ List.replicate (14 - bs.length) 0x00 ∧
      t.block = { s.block with txbuf := t.block.txbuf, txlen := bs.length + 2, err := .ok } ∧
      t.pending = s.pending

/-- A response of any length but nine is an invalid response for both checks (42_frame_check.md R141, R142, 42_frame_check.md R146, R147). -/
def Obligations.ResponseLengthIsExactlyNine : Prop :=
  ∀ (bs : List Byte) (s : State),
    (∃ t, runEvents (rxFrameEvents bs) s = .next t ∧ (lenOk t.block = true ↔ bs.length = 9) ∧
      (lenOk t.block = true ↔ t.block.rxovf = false ∧ t.block.rxcnt = 9)) ∧
    (bs.length ≠ 9 →
      (∃ t, runEvents (rxFrameEvents bs ++ [issue .parseRead]) s = .next t ∧
        t.block.err = .invalidResponse ∧ t.block.crcok = false) ∧
      (s.block.expvalid = true →
        ∃ t, runEvents (rxFrameEvents bs ++ [issue .checkWrite]) s = .next t ∧
          t.block.err = .invalidResponse ∧ t.block.crcok = false))

/-- A nine-byte response with one covered byte altered is an invalid CRC for both checks (40_crc.md R109, 42_frame_check.md R142, 95_test_vectors.md T6). -/
def Obligations.AlteredResponseIsInvalidCrc : Prop :=
  ∀ (f : List Byte) (k : Nat) (x : Byte) (s : State), f.length = 9 → verifyCrc f = true → k < 7 → x ≠ f.getD k 0 →
    (∃ t, runEvents (rxFrameEvents (f.set k x) ++ [issue .parseRead]) s = .next t ∧
      t.block.err = .invalidCrc ∧ t.block.crcok = false) ∧
    (s.block.expvalid = true →
      ∃ t, runEvents (rxFrameEvents (f.set k x) ++ [issue .checkWrite]) s = .next t ∧
        t.block.err = .invalidCrc ∧ t.block.crcok = false)

/-- After BUILD_WRITE, CHECK_WRITE reports OK for exactly one response (42_frame_check.md R146, R149, 48_host_protocol.md R171). -/
def Obligations.WriteExchangeAcceptsOnlyTheEcho : Prop :=
  ∀ (bs : List Byte) (s : State),
    ∃ t, runEvents ([issue .buildWrite] ++ rxFrameEvents bs ++ [issue .checkWrite]) s = .next t ∧
      (t.block.err = .ok ↔ bs = writeExpected s.block.node s.block.regaddr)

/-- A synthesized read response gives its value back, in the block and as the result of the host's read exchange (42_frame_check.md R148, R149, 70_reset_and_hazards.md R230, 48_host_protocol.md R172). Model's choice: log entries 10 and 15. -/
def Obligations.ReadRoundTrip : Prop :=
  ∀ (n func count : Byte) (v : Word) (s : State),
    (∃ t, runEvents (rxFrameEvents (appendCrc ([n, func, count] ++
          [v.extractLsb' 24 8, v.extractLsb' 16 8, v.extractLsb' 8 8, v.extractLsb' 0 8])) ++ [issue .parseRead]) s =
        .next t ∧
      t.block.err = .ok ∧ t.block.crcok = true ∧ t.block.rdval = v ∧ t.block.rdbc = count) ∧
    ∀ (p : HostParams) (node : Byte) (a : Half), 9 ≤ p.rxReadMax →
      ∃ t, runExchanges p node [] [.read a] [.bytes (appendCrc ([n, func, count] ++
            [v.extractLsb' 24 8, v.extractLsb' 16 8, v.extractLsb' 8 8, v.extractLsb' 0 8]))] [] s =
          .ended .noError [{ rdval := v, rdbc := count }] t ∧
        t.block.err = .ok ∧ t.block.txbuf.toList = readRequest node a ++ List.replicate 8 0x00

/-- A host read changes no field of the block and is idempotent (20_memory.md R55, 20_memory.md R52, R53). Model's choice: log entries 2 and 3. -/
def Obligations.ReadsHaveNoSideEffects : Prop :=
  (∀ (s : State) (width off : Nat) (rest : List HostEvent), s.pending = .read width off :: rest →
    ∃ t, step s = .next t ∧ t.block = s.block ∧ t.pending = rest ∧
      ∀ (q : State) (more : List HostEvent), q.block = s.block → q.pending = .read width off :: more →
        ∃ u, step q = .next u ∧ u.response = t.response) ∧
  (∀ (s : State) (off : Nat) (r : BlockReg) (rest : List HostEvent), s.pending = .read 4 off :: rest →
    off < 0x100 → off % 4 = 0 → regAt off = some r →
    step s = .next { s with pending := rest, response := .data (readReg r s.block) })

/-- What a 32-bit read of each register of the window returns (10_state.md R34, R35, 10_state.md R37 to R44). -/
def Obligations.RegisterWindowReads : Prop :=
  ∀ s : State,
    (∀ p ∈ [(0x00, 0#32), (0x08, s.block.node.setWidth 32), (0x0C, s.block.regaddr.setWidth 32), (0x10, s.block.wvalue),
        (0x14, s.block.crc.setWidth 32), (0x18, s.block.rdval), (0x1C, s.block.rdbc.setWidth 32)],
      step { s with pending := .read 4 p.1 :: s.pending } = .next { s with response := .data p.2 }) ∧
    (∀ i : Fin 16, step { s with pending := .read 4 (0x40 + 4 * i.val) :: s.pending } =
      .next { s with response := .data (s.block.txbuf[i].setWidth 32) }) ∧
    (∀ i : Fin 16, step { s with pending := .read 4 (0x80 + 4 * i.val) :: s.pending } =
      .next { s with response := .data (s.block.rxbuf[i].setWidth 32) }) ∧
    (∀ i : Fin 9, step { s with pending := .read 4 (0xC0 + 4 * i.val) :: s.pending } =
      .next { s with response := .data (s.block.expbuf[i].setWidth 32) })

/-- STATUS shows every flag and counter in its own bits, and a write to it is refused (10_state.md R36, 20_memory.md R54). Model's choice: log entry 2. -/
def Obligations.StatusWordFields : Prop :=
  ∀ s : State, s.block.txlen ≤ 16 → s.block.rxcnt ≤ 16 →
    (∃ w : Word, step { s with pending := .read 4 0x04 :: s.pending } = .next { s with response := .data w } ∧
      (w.extractLsb' 0 2).toNat =
        (match s.block.err with | .ok => 0 | .invalidResponse => 1 | .invalidCrc => 2 | .cmdError => 3) ∧
      w.getLsbD 2 = s.block.crcok ∧ w.getLsbD 3 = s.block.expvalid ∧ w.getLsbD 4 = s.block.rxovf ∧
      w.extractLsb' 5 3 = 0 ∧ (w.extractLsb' 8 5).toNat = s.block.txlen ∧ w.extractLsb' 13 3 = 0 ∧
      (w.extractLsb' 16 5).toNat = s.block.rxcnt ∧ w.extractLsb' 21 11 = 0) ∧
    ∀ v : Word, step { s with pending := .write 4 0x04 v :: s.pending } =
      .next { s with response := .fault (.busError 0x04) }

/-- A write to NODE, REGADDR or WVALUE stores its low bits and does nothing else (R37, R38, R39). -/
def Obligations.OperandRegisterWrites : Prop :=
  ∀ (s : State) (v : Word),
    (∃ t, step { s with pending := .write 4 0x08 v :: s.pending } = .next t ∧
      t = { s with block := { s.block with node := v.extractLsb' 0 8 }, response := .done } ∧
      step { t with pending := .read 4 0x08 :: t.pending } =
        .next { t with response := .data ((v.extractLsb' 0 8).setWidth 32) }) ∧
    (∃ t, step { s with pending := .write 4 0x0C v :: s.pending } = .next t ∧
      t = { s with block := { s.block with regaddr := v.extractLsb' 0 16 }, response := .done } ∧
      step { t with pending := .read 4 0x0C :: t.pending } =
        .next { t with response := .data ((v.extractLsb' 0 16).setWidth 32) }) ∧
    (∃ t, step { s with pending := .write 4 0x10 v :: s.pending } = .next t ∧
      t = { s with block := { s.block with wvalue := v }, response := .done } ∧
      step { t with pending := .read 4 0x10 :: t.pending } = .next { t with response := .data v })

/-- An access of another width, misaligned, unmapped, or a write to a read-only register is refused (20_memory.md R52 to R54, 60_exceptions.md R203). Model's choice: log entry 2. -/
def Obligations.RefusedAccessesChangeNothing : Prop :=
  (∀ (s : State) (width off : Nat) (v : Word) (e : HostEvent) (rest : List HostEvent),
    off < 0x100 → e = .read width off ∨ e = .write width off v → s.pending = e :: rest →
    width ≠ 4 ∨ off % 4 ≠ 0 ∨ (0x20 ≤ off ∧ off < 0x40) ∨ (0xE4 ≤ off ∧ off < 0x100) ∨
      (e = .write width off v ∧ (off = 0x04 ∨ (0x14 ≤ off ∧ off < 0x20) ∨ (0x40 ≤ off ∧ off < 0xE4))) →
    step s = .next { s with pending := rest, response := .fault (.busError off) }) ∧
  ∀ s : State, step { s with pending := .read 4 0x00 :: s.pending } = .next { s with response := .data 0 }

/-- An access at or past offset 0x100 does not reach the block (20_memory.md R53). Model's choice: log entry 3. -/
def Obligations.AccessesPastTheWindowDoNotReachTheBlock : Prop :=
  ∀ (s : State) (width off : Nat) (v : Word) (e : HostEvent) (rest : List HostEvent), 0x100 ≤ off →
    e = .read width off ∨ e = .write width off v → s.pending = e :: rest →
    step s = .next { s with pending := rest, response := .platform off }

/-- Each offset of the window has one bus address, and no other address has an offset (20_memory.md R63, 10_state.md R34). Model's choice: log entry 4. -/
def Obligations.WindowOffsetsOfBusAddresses : Prop :=
  ∀ base addr off : Nat,
    (off < 0x100 → windowOffset base (busAddress base off) = some off) ∧
    (windowOffset base addr = some off ↔ base ≤ addr ∧ addr < base + 0x100 ∧ addr = base + off)

/-- No access and no command stops the machine (60_exceptions.md R200, 70_reset_and_hazards.md R226). Model's choice: log entries 1, 2, 3, 5, 6 and 9. -/
def Obligations.UnderstoodEventsProceed : Prop :=
  (∀ (s : State) (e : HostEvent) (rest : List HostEvent), s.pending = e :: rest → e.understood = true →
    ∃ t, step s = .next t ∧ t.pending = rest) ∧
  (∀ s : State, s.pending = [] → step s = .next s) ∧
  ∀ (s : State) (r : Fault), step s ≠ .fault r

/-- A run whose pending events are understood reaches a state with nothing pending (60_exceptions.md R200, 20_memory.md R57, R58). Model's choice: log entries 1, 2, 3, 5, 6 and 9. -/
def Obligations.SafeRunsDrainWhatIsPending : Prop :=
  ∀ s : State, s.safe = true → ∃ t, Sys2Proof.core.run s.pending.length s = .next t ∧ t.pending = []

/-- Apart from a frame given whole, only a command or reset writes ERR, and a wait changes nothing in the block (10_state.md R32, 20_memory.md R56, 70_reset_and_hazards.md R228). Model's choice: log entries 5 and 9. -/
def Obligations.ErrIsLeftByNonCommands : Prop :=
  (∀ (s t : State) (e : HostEvent) (rest : List HostEvent), s.pending = e :: rest → step s = .next t →
    (∀ w, e ≠ .write 4 0x00 w) → (∀ f, e ≠ .frame f) → e ≠ .reset → t.block.err = s.block.err) ∧
  ∀ (s : State) (ms : Nat) (rest : List HostEvent), s.pending = .wait ms :: rest →
    step s = .next { block := s.block, pending := rest, response := .none }

/-- CRC is written only by CRC_INIT, CRC_BYTE and reset, and read by no other command (10_state.md R23, 40_crc.md R104, R105). -/
def Obligations.CrcRegisterOwners : Prop :=
  (∀ (s t : State) (e : HostEvent) (rest : List HostEvent), s.pending = e :: rest → step s = .next t →
    t.block.crc ≠ s.block.crc →
    e = .reset ∨ ∃ w, e = .write 4 0x00 w ∧
      (decodeCommand w = .ok .crcInit ∨ ∃ b, decodeCommand w = .ok (.crcByte b))) ∧
  ∀ (i : Instr) (s t : State) (c : Half), i ≠ .crcInit → (∀ b, i ≠ .crcByte b) → exec i s = .next t →
    exec i { s with block := { s.block with crc := c } } = .next { t with block := { t.block with crc := c } }

/-- NODE, REGADDR and WVALUE are written only by host writes of them and by reset (10_state.md R24 to R26). Model's choice: log entry 5. -/
def Obligations.OperandRegisterOwners : Prop :=
  ∀ (s t : State) (e : HostEvent) (rest : List HostEvent), s.pending = e :: rest → step s = .next t →
    e ≠ .reset → (∀ f, e ≠ .frame f) →
    (t.block.node ≠ s.block.node → ∃ v, e = .write 4 0x08 v) ∧
    (t.block.regaddr ≠ s.block.regaddr → ∃ v, e = .write 4 0x0C v) ∧
    (t.block.wvalue ≠ s.block.wvalue → ∃ v, e = .write 4 0x10 v)

/-- Each buffer, flag and result field is written only by the commands the spec names for it (10_state.md R27 to R31, 10_state.md R33, R48). -/
def Obligations.ResultFieldOwners : Prop :=
  ∀ (w : Word) (i : Instr) (s t : State), decodeCommand w = .ok i → exec i s = .next t →
    (t.block.expbuf ≠ s.block.expbuf → i = .buildWrite) ∧
    (t.block.expvalid ≠ s.block.expvalid → i = .buildWrite ∨ i = .buildRead) ∧
    (t.block.txbuf ≠ s.block.txbuf ∨ t.block.txlen ≠ s.block.txlen →
      i = .buildWrite ∨ i = .buildRead ∨ i = .txClear ∨ (∃ b, i = .txPush b) ∨ i = .txAppendCrc) ∧
    (t.block.rxbuf ≠ s.block.rxbuf ∨ t.block.rxcnt ≠ s.block.rxcnt ∨ t.block.rxovf ≠ s.block.rxovf →
      i = .rxClear ∨ ∃ b, i = .rxPush b) ∧
    (t.block.rdval ≠ s.block.rdval ∨ t.block.rdbc ≠ s.block.rdbc → i = .parseRead ∧ t.block.err = .ok) ∧
    (t.block.crcok ≠ s.block.crcok → i = .rxVerifyCrc ∨ i = .checkWrite ∨ i = .parseRead)

/-- A command that reports CMD_ERROR has changed only ERR, and a failed check only ERR and CRCOK (60_exceptions.md R205, 60_exceptions.md R201). -/
def Obligations.OutcomesArePrecise : Prop :=
  ∀ (w : Word) (s : State), ∃ t, runCommand w s = .next t ∧
    (t.block.err = .cmdError → t.block = { s.block with err := .cmdError }) ∧
    (t.block.err = .invalidResponse ∨ t.block.err = .invalidCrc →
      t.block = { s.block with err := t.block.err, crcok := t.block.crcok })

/-- Once a byte was discarded, only RX_CLEAR or reset takes RXOVF back (42_frame_check.md R144, 10_state.md R29). Model's choice: log entry 5. -/
def Obligations.OverflowStaysUntilCleared : Prop :=
  (∀ (s t : State) (e : HostEvent) (rest : List HostEvent), s.pending = e :: rest → step s = .next t →
    s.block.rxovf = true → t.block.rxovf = false →
    e = .reset ∨ (∃ w, e = .write 4 0x00 w ∧ decodeCommand w = .ok .rxClear) ∨ ∃ f, e = .frame f) ∧
  ∀ s t : State, s.Inv → step s = .next t → s.block.rxovf = true → t.block.rxovf = true →
    s.block.rxcnt = 16 ∧ t.block.rxcnt = 16

/-- Every step keeps the block's invariant (10_state.md R40, 10_state.md R46, 10_state.md R28, R29, 40_crc.md R105). -/
def Obligations.StepKeepsTheInvariant : Prop :=
  ∀ s t : State, s.Inv → step s = .next t → t.Inv

/-- The reset state has the invariant (10_state.md R45, 10_state.md R40, R46). -/
def Obligations.ResetHasTheInvariant : Prop :=
  State.reset.Inv

/-- In every state the host can reach from reset the counters are bounded and the buffers zero past them (10_state.md R40, 10_state.md R46). Model's choice: log entry 1. -/
def Obligations.ZeroFillInEveryReachableState : Prop :=
  ∀ (es : List HostEvent) (k : Nat) (t : State),
    Sys2Proof.core.run k { State.reset with pending := es } = .next t →
    t.block.txlen ≤ 16 ∧ t.block.rxcnt ≤ 16 ∧
    (BitVec.ofNat 5 t.block.txlen).toNat = t.block.txlen ∧ (BitVec.ofNat 5 t.block.rxcnt).toNat = t.block.rxcnt ∧
    (∀ i : Fin 16, t.block.txlen ≤ i.val → t.block.txbuf[i] = 0) ∧
    ∀ i : Fin 16, t.block.rxcnt ≤ i.val → t.block.rxbuf[i] = 0

/-- Switch sends its request to 0x010E and ends well exactly when the bytes it takes are the exact echo (48_host_protocol.md R171, R177, 48_host_protocol.md R184, 42_frame_check.md R146). Model's choice: log entry 10. -/
def Obligations.SwitchEndsWellOnTheEcho : Prop :=
  ∀ (p : HostParams) (node : Byte) (on : Bool) (bs : List Byte) (s : State),
    ((∃ t, runSwitch p node on [.bytes bs] s = .ended .noError [] t) ↔
      bs.take p.rxReadMax = writeExpected node 0x010E) ∧
    ∃ code t, runSwitch p node on [.bytes bs] s = .ended code [] t ∧
      t.block.txbuf.toList = writeRequest node 0x010E (if on = true then 1 else 0) ++ [0x00, 0x00, 0x00]

/-- The wire integer of a user value is its scaled value truncated, or the value is refused (48_host_protocol.md R180, 92_eei_decisions.md D37, D38, 93_implementation_defined.md I18). -/
def Obligations.ScalingTruncatesExactly : Prop :=
  ∀ (p : HostParams) (x : Decimal) (k : Nat), p.scaleConvert = Decimal.exactScale →
    (∀ w : Word, wireInteger p x k = some w → 0 ≤ x.mantissa ∧
      (w.toNat : Int) * 10 ^ x.places ≤ x.mantissa * k ∧ x.mantissa * k < ((w.toNat : Int) + 1) * 10 ^ x.places) ∧
    (wireInteger p x k = none ↔ x.mantissa < 0 ∨ 0x100000000 * 10 ^ x.places ≤ x.mantissa * k)

/-- Each mode has the code, letter and label of the mode table, and a value's last byte alone decides its mode (48_host_protocol.md R179, R181, 92_eei_decisions.md D39). -/
def Obligations.ModeByteDecides : Prop :=
  (∀ m : LoadMode,
      (m, m.code, m.letter, m.label) ∈ [(.constantVoltage, 0, 'v', "CV"), (.constantCurrent, 1, 'c', "CC"),
        (.constantResistance, 2, 'r', "CR"), (.constantPower, 3, 'p', "CP")]) ∧
  (∀ m : LoadMode, LoadMode.ofValue m.code = some m) ∧
  (∀ v w : Word, v.extractLsb' 0 8 = w.extractLsb' 0 8 → LoadMode.ofValue v = LoadMode.ofValue w) ∧
  ∀ v : Word, LoadMode.ofValue v = none ↔ 3 < (v.extractLsb' 0 8).toNat
end

