-- ==== Sys2Proof/Laws/Crc.lean ====
section
/-! SUPPORT. Laws of the CRC engine and of the frame builders (spec/40_crc.md R100 to R103). -/

namespace Sys2Proof.Machine

open Sys2Proof

theorem toNat_append_byte {w : Nat} (x : BitVec w) (b : Byte) : (x ++ b).toNat = x.toNat * 256 + b.toNat := by
  rw [BitVec.toNat_append, ← Nat.shiftLeft_add_eq_or_of_lt b.isLt, Nat.shiftLeft_eq]

theorem fromBe16_toNat (b0 b1 : Byte) : (fromBe16 b0 b1).toNat = b0.toNat * 256 + b1.toNat :=
  toNat_append_byte b0 b1

theorem fromBe32_toNat (b0 b1 b2 b3 : Byte) :
    (fromBe32 b0 b1 b2 b3).toNat = ((b0.toNat * 256 + b1.toNat) * 256 + b2.toNat) * 256 + b3.toNat := by
  have h1 := toNat_append_byte b0 b1
  have h2 := toNat_append_byte (b0 ++ b1) b2
  have h3 := toNat_append_byte (b0 ++ b1 ++ b2) b3
  rw [h2, h1] at h3
  exact h3

/-- A value put together from its bytes high byte first has them back (R12). -/
theorem fromBe16_extract (v : Half) : fromBe16 (v.extractLsb' 8 8) (v.extractLsb' 0 8) = v := by
  apply BitVec.eq_of_toNat_eq
  rw [fromBe16_toNat]
  simp only [BitVec.extractLsb'_toNat, Nat.shiftRight_eq_div_pow]
  have := v.isLt
  omega

theorem fromBe32_extract (v : Word) :
    fromBe32 (v.extractLsb' 24 8) (v.extractLsb' 16 8) (v.extractLsb' 8 8) (v.extractLsb' 0 8) = v := by
  apply BitVec.eq_of_toNat_eq
  rw [fromBe32_toNat]
  simp only [BitVec.extractLsb'_toNat, Nat.shiftRight_eq_div_pow]
  have := v.isLt
  omega

theorem be16_fromBe16 (b0 b1 : Byte) : be16 (fromBe16 b0 b1) = [b0, b1] := by
  simp only [be16, List.cons.injEq, and_true]
  have := b0.isLt
  have := b1.isLt
  constructor <;> apply BitVec.eq_of_toNat_eq <;>
    simp only [BitVec.extractLsb'_toNat, Nat.shiftRight_eq_div_pow, fromBe16_toNat] <;> omega

theorem be32_fromBe32 (b0 b1 b2 b3 : Byte) : be32 (fromBe32 b0 b1 b2 b3) = [b0, b1, b2, b3] := by
  simp only [be32, List.cons.injEq, and_true]
  have := b0.isLt
  have := b1.isLt
  have := b2.isLt
  have := b3.isLt
  refine ⟨?_, ?_, ?_, ?_⟩ <;> apply BitVec.eq_of_toNat_eq <;>
    simp only [BitVec.extractLsb'_toNat, Nat.shiftRight_eq_div_pow, fromBe32_toNat] <;> omega

/-- A byte written in a wider word is read back from its low bits. -/
theorem extract_setWidth_byte (n : Byte) : (n.setWidth 32).extractLsb' 0 8 = n := by
  apply BitVec.eq_of_toNat_eq
  have := n.isLt
  simp only [BitVec.extractLsb'_toNat, BitVec.toNat_setWidth, Nat.shiftRight_zero]
  omega

theorem extract_setWidth_half (a : Half) : (a.setWidth 32).extractLsb' 0 16 = a := by
  apply BitVec.eq_of_toNat_eq
  have := a.isLt
  simp only [BitVec.extractLsb'_toNat, BitVec.toNat_setWidth, Nat.shiftRight_zero]
  omega

theorem fromBe16_injective {a b c d : Byte} (h : fromBe16 a b = fromBe16 c d) : a = c ∧ b = d := by
  have := congrArg be16 h
  simpa [be16_fromBe16] using this

@[simp] theorem crc16_nil : crc16 [] = Config.crcSeed := rfl

/-- R101: the bytes are taken in list order. -/
theorem crc16_append_singleton (xs : List Byte) (x : Byte) : crc16 (xs ++ [x]) = crcStep (crc16 xs) x := by
  simp [crc16]

/-- One shift, bit by bit (R100). -/
theorem crcShift_getLsbD (e : Half) (i : Nat) :
    (crcShift e).getLsbD i = ((e.getLsbD (1 + i)) ^^ (e.getLsbD 0 && Config.crcPoly.getLsbD i)) := by
  unfold crcShift
  split <;> rename_i h0 <;> simp at h0 <;> simp [h0]

/-- One shift can be undone: the shift fills bit 15 with 0 and the polynomial sets it. -/
theorem crcShift_injective {c d : Half} (h : crcShift c = crcShift d) : c = d := by
  have hb : ∀ i : Nat, (crcShift c).getLsbD i = (crcShift d).getLsbD i := fun i => by rw [h]
  simp only [crcShift_getLsbD] at hb
  have h0 : c.getLsbD 0 = d.getLsbD 0 := by
    have := hb 15
    have hp : Config.crcPoly.getLsbD 15 = true := by decide
    rwa [BitVec.getLsbD_of_ge c _ (by decide), BitVec.getLsbD_of_ge d _ (by decide), hp, Bool.and_true, Bool.and_true,
      Bool.false_xor, Bool.false_xor] at this
  apply BitVec.eq_of_getLsbD_eq
  intro i hi
  rcases i with _ | i
  · exact h0
  · have := hb i
    rw [h0, Nat.add_comm] at this
    simpa using this
theorem crcShifts_injective (n : Nat) {c d : Half} (h : crcShifts n c = crcShifts n d) : c = d := by
  induction n generalizing c d with
  | zero => exact h
  | succ n ih => exact crcShift_injective (ih h)

/-- A step loses nothing of the register: registers that differ stay different under the same byte. -/
theorem crcStep_injective_register {c d : Half} {b : Byte} (h : crcStep c b = crcStep d b) : c = d := by
  simpa using crcShifts_injective _ h

/-- A step loses nothing of the byte: bytes that differ give different registers. -/
theorem crcStep_injective_byte {c : Half} {b e : Byte} (h : crcStep c b = crcStep c e) : b = e := by
  have h1 := crcShifts_injective _ h
  have h2 : b.setWidth 16 = e.setWidth 16 := by simpa using h1
  have h3 := congrArg (BitVec.setWidth 8) h2
  simpa using h3

theorem foldl_crcStep_injective (xs : List Byte) {c d : Half} (h : xs.foldl crcStep c = xs.foldl crcStep d) :
    c = d := by
  induction xs generalizing c d with
  | nil => exact h
  | cons x xs ih => exact crcStep_injective_register (ih h)

/-- Replacing one byte by another changes the CRC, at any length (R109). -/
theorem crc16_set_ne (xs : List Byte) (k : Nat) (x : Byte) (hk : k < xs.length) (hx : x ≠ xs.getD k 0) :
    crc16 (xs.set k x) ≠ crc16 xs := by
  intro h
  have hs : xs = xs.take k ++ xs.getD k 0 :: xs.drop (k + 1) := by
    rw [List.getD_eq_getElem _ _ hk]
    simp
  have ht : xs.set k x = xs.take k ++ x :: xs.drop (k + 1) := List.set_eq_take_append_cons_drop.trans (by simp [hk])
  rw [ht] at h
  conv at h => rhs; rw [hs]
  simp only [crc16, List.foldl_append, List.foldl_cons] at h
  exact hx (crcStep_injective_byte (foldl_crcStep_injective _ h))

theorem appendCrc_length (xs : List Byte) : (appendCrc xs).length = xs.length + 2 := by simp [appendCrc, be16]

/-- R103: what a list of two or more bytes verifies as, by its body and its last two bytes. -/
theorem verifyCrc_append_two (ys : List Byte) (c1 c0 : Byte) :
    verifyCrc (ys ++ [c1, c0]) = (crc16 ys == fromBe16 c1 c0) := by
  simp [verifyCrc, List.getD_eq_getElem?_getD]

/-- R103: a body followed by a CRC field verifies when the field is the body's CRC. -/
theorem verifyCrc_append_be16 (ys : List Byte) (crc : Half) :
    verifyCrc (ys ++ be16 crc) = decide (crc = crc16 ys) := by
  rw [be16, verifyCrc_append_two, fromBe16_extract, Bool.eq_iff_iff, beq_iff_eq, decide_eq_true_eq, eq_comm]

/-- R140, R84: the parser reads the count and the value back. -/
theorem parseReadResponse_readResponse (n func count : Byte) (v : Word) (crc : Half) :
    parseReadResponse (readResponse n func count v crc) = (count, v) := by
  conv => rhs; rw [← fromBe32_extract v]
  rfl

/-- A list of two or more bytes is a body and its last two bytes. -/
theorem exists_body {xs : List Byte} (h : 2 ≤ xs.length) :
    ∃ ys c1 c0, xs = ys ++ [c1, c0] ∧ ys.length = xs.length - 2 := by
  obtain ⟨c1, c0, hd⟩ : ∃ c1 c0, xs.drop (xs.length - 2) = [c1, c0] := by
    have hl : (xs.drop (xs.length - 2)).length = 2 := by simp; omega
    match hm : xs.drop (xs.length - 2), hl with
    | [a, b], _ => exact ⟨a, b, rfl⟩
  exact ⟨xs.take (xs.length - 2), c1, c0, by rw [← hd, List.take_append_drop], by simp⟩

theorem verifyCrc_short {xs : List Byte} (h : xs.length < 2) : verifyCrc xs = false := by simp [verifyCrc, h]

@[simp] theorem writeHead_length (n : Byte) (a : Half) : (writeHead n a).length = 7 := rfl
@[simp] theorem writeRequest_length (n : Byte) (a : Half) (v : Word) : (writeRequest n a v).length = 13 := rfl
@[simp] theorem writeExpected_length (n : Byte) (a : Half) : (writeExpected n a).length = 9 := rfl
@[simp] theorem readRequest_length (n : Byte) (a : Half) : (readRequest n a).length = 8 := rfl
@[simp] theorem writeResponse_length (n : Byte) (a crc : Half) : (writeResponse n a crc).length = 9 := rfl
@[simp] theorem readResponse_length (n func count : Byte) (v : Word) (crc : Half) :
    (readResponse n func count v crc).length = 9 := rfl

end Sys2Proof.Machine
end

