-- ==== Sys2Proof/Laws/State.lean ====
section
/-! SUPPORT. One lemma for each field of the block and each named update of Machine/Ops.lean, and for each field of the
machine's state and each named operation on it, so that no later proof unfolds a record update. -/

namespace Sys2Proof.Machine

@[simp] theorem Block.setErr_crc (b : Block) (e : Err) : (b.setErr e).crc = b.crc := rfl
@[simp] theorem Block.setErr_node (b : Block) (e : Err) : (b.setErr e).node = b.node := rfl
@[simp] theorem Block.setErr_regaddr (b : Block) (e : Err) : (b.setErr e).regaddr = b.regaddr := rfl
@[simp] theorem Block.setErr_wvalue (b : Block) (e : Err) : (b.setErr e).wvalue = b.wvalue := rfl
@[simp] theorem Block.setErr_txbuf (b : Block) (e : Err) : (b.setErr e).txbuf = b.txbuf := rfl
@[simp] theorem Block.setErr_txlen (b : Block) (e : Err) : (b.setErr e).txlen = b.txlen := rfl
@[simp] theorem Block.setErr_expbuf (b : Block) (e : Err) : (b.setErr e).expbuf = b.expbuf := rfl
@[simp] theorem Block.setErr_expvalid (b : Block) (e : Err) : (b.setErr e).expvalid = b.expvalid := rfl
@[simp] theorem Block.setErr_rxbuf (b : Block) (e : Err) : (b.setErr e).rxbuf = b.rxbuf := rfl
@[simp] theorem Block.setErr_rxcnt (b : Block) (e : Err) : (b.setErr e).rxcnt = b.rxcnt := rfl
@[simp] theorem Block.setErr_rxovf (b : Block) (e : Err) : (b.setErr e).rxovf = b.rxovf := rfl
@[simp] theorem Block.setErr_rdval (b : Block) (e : Err) : (b.setErr e).rdval = b.rdval := rfl
@[simp] theorem Block.setErr_rdbc (b : Block) (e : Err) : (b.setErr e).rdbc = b.rdbc := rfl
@[simp] theorem Block.setErr_err (b : Block) (e : Err) : (b.setErr e).err = e := rfl
@[simp] theorem Block.setErr_crcok (b : Block) (e : Err) : (b.setErr e).crcok = b.crcok := rfl

@[simp] theorem Block.setCheck_crc (b : Block) (c : Bool) (e : Err) : (b.setCheck c e).crc = b.crc := rfl
@[simp] theorem Block.setCheck_node (b : Block) (c : Bool) (e : Err) : (b.setCheck c e).node = b.node := rfl
@[simp] theorem Block.setCheck_regaddr (b : Block) (c : Bool) (e : Err) : (b.setCheck c e).regaddr = b.regaddr := rfl
@[simp] theorem Block.setCheck_wvalue (b : Block) (c : Bool) (e : Err) : (b.setCheck c e).wvalue = b.wvalue := rfl
@[simp] theorem Block.setCheck_txbuf (b : Block) (c : Bool) (e : Err) : (b.setCheck c e).txbuf = b.txbuf := rfl
@[simp] theorem Block.setCheck_txlen (b : Block) (c : Bool) (e : Err) : (b.setCheck c e).txlen = b.txlen := rfl
@[simp] theorem Block.setCheck_expbuf (b : Block) (c : Bool) (e : Err) : (b.setCheck c e).expbuf = b.expbuf := rfl
@[simp] theorem Block.setCheck_expvalid (b : Block) (c : Bool) (e : Err) : (b.setCheck c e).expvalid = b.expvalid := rfl
@[simp] theorem Block.setCheck_rxbuf (b : Block) (c : Bool) (e : Err) : (b.setCheck c e).rxbuf = b.rxbuf := rfl
@[simp] theorem Block.setCheck_rxcnt (b : Block) (c : Bool) (e : Err) : (b.setCheck c e).rxcnt = b.rxcnt := rfl
@[simp] theorem Block.setCheck_rxovf (b : Block) (c : Bool) (e : Err) : (b.setCheck c e).rxovf = b.rxovf := rfl
@[simp] theorem Block.setCheck_rdval (b : Block) (c : Bool) (e : Err) : (b.setCheck c e).rdval = b.rdval := rfl
@[simp] theorem Block.setCheck_rdbc (b : Block) (c : Bool) (e : Err) : (b.setCheck c e).rdbc = b.rdbc := rfl
@[simp] theorem Block.setCheck_err (b : Block) (c : Bool) (e : Err) : (b.setCheck c e).err = e := rfl
@[simp] theorem Block.setCheck_crcok (b : Block) (c : Bool) (e : Err) : (b.setCheck c e).crcok = c := rfl

@[simp] theorem Block.setRequest_crc (b : Block) (f : List Byte) : (b.setRequest f).crc = b.crc := by rw [Block.setRequest]
@[simp] theorem Block.setRequest_node (b : Block) (f : List Byte) : (b.setRequest f).node = b.node := by rw [Block.setRequest]
@[simp] theorem Block.setRequest_regaddr (b : Block) (f : List Byte) : (b.setRequest f).regaddr = b.regaddr := by rw [Block.setRequest]
@[simp] theorem Block.setRequest_wvalue (b : Block) (f : List Byte) : (b.setRequest f).wvalue = b.wvalue := by rw [Block.setRequest]
@[simp] theorem Block.setRequest_txbuf (b : Block) (f : List Byte) : (b.setRequest f).txbuf = bufferOf 16 f := by rw [Block.setRequest]
@[simp] theorem Block.setRequest_txlen (b : Block) (f : List Byte) : (b.setRequest f).txlen = f.length := by rw [Block.setRequest]
@[simp] theorem Block.setRequest_expbuf (b : Block) (f : List Byte) : (b.setRequest f).expbuf = b.expbuf := by rw [Block.setRequest]
@[simp] theorem Block.setRequest_expvalid (b : Block) (f : List Byte) : (b.setRequest f).expvalid = b.expvalid := by rw [Block.setRequest]
@[simp] theorem Block.setRequest_rxbuf (b : Block) (f : List Byte) : (b.setRequest f).rxbuf = b.rxbuf := by rw [Block.setRequest]
@[simp] theorem Block.setRequest_rxcnt (b : Block) (f : List Byte) : (b.setRequest f).rxcnt = b.rxcnt := by rw [Block.setRequest]
@[simp] theorem Block.setRequest_rxovf (b : Block) (f : List Byte) : (b.setRequest f).rxovf = b.rxovf := by rw [Block.setRequest]
@[simp] theorem Block.setRequest_rdval (b : Block) (f : List Byte) : (b.setRequest f).rdval = b.rdval := by rw [Block.setRequest]
@[simp] theorem Block.setRequest_rdbc (b : Block) (f : List Byte) : (b.setRequest f).rdbc = b.rdbc := by rw [Block.setRequest]
@[simp] theorem Block.setRequest_err (b : Block) (f : List Byte) : (b.setRequest f).err = b.err := by rw [Block.setRequest]
@[simp] theorem Block.setRequest_crcok (b : Block) (f : List Byte) : (b.setRequest f).crcok = b.crcok := by rw [Block.setRequest]

@[simp] theorem Block.appendTx_crc (b : Block) (x : Byte) : (b.appendTx x).crc = b.crc := rfl
@[simp] theorem Block.appendTx_node (b : Block) (x : Byte) : (b.appendTx x).node = b.node := rfl
@[simp] theorem Block.appendTx_regaddr (b : Block) (x : Byte) : (b.appendTx x).regaddr = b.regaddr := rfl
@[simp] theorem Block.appendTx_wvalue (b : Block) (x : Byte) : (b.appendTx x).wvalue = b.wvalue := rfl
@[simp] theorem Block.appendTx_txbuf (b : Block) (x : Byte) : (b.appendTx x).txbuf = b.txbuf.setIfInBounds b.txlen x := rfl
@[simp] theorem Block.appendTx_txlen (b : Block) (x : Byte) : (b.appendTx x).txlen = b.txlen + 1 := rfl
@[simp] theorem Block.appendTx_expbuf (b : Block) (x : Byte) : (b.appendTx x).expbuf = b.expbuf := rfl
@[simp] theorem Block.appendTx_expvalid (b : Block) (x : Byte) : (b.appendTx x).expvalid = b.expvalid := rfl
@[simp] theorem Block.appendTx_rxbuf (b : Block) (x : Byte) : (b.appendTx x).rxbuf = b.rxbuf := rfl
@[simp] theorem Block.appendTx_rxcnt (b : Block) (x : Byte) : (b.appendTx x).rxcnt = b.rxcnt := rfl
@[simp] theorem Block.appendTx_rxovf (b : Block) (x : Byte) : (b.appendTx x).rxovf = b.rxovf := rfl
@[simp] theorem Block.appendTx_rdval (b : Block) (x : Byte) : (b.appendTx x).rdval = b.rdval := rfl
@[simp] theorem Block.appendTx_rdbc (b : Block) (x : Byte) : (b.appendTx x).rdbc = b.rdbc := rfl
@[simp] theorem Block.appendTx_err (b : Block) (x : Byte) : (b.appendTx x).err = b.err := rfl
@[simp] theorem Block.appendTx_crcok (b : Block) (x : Byte) : (b.appendTx x).crcok = b.crcok := rfl

@[simp] theorem Block.appendRx_crc (b : Block) (x : Byte) : (b.appendRx x).crc = b.crc := rfl
@[simp] theorem Block.appendRx_node (b : Block) (x : Byte) : (b.appendRx x).node = b.node := rfl
@[simp] theorem Block.appendRx_regaddr (b : Block) (x : Byte) : (b.appendRx x).regaddr = b.regaddr := rfl
@[simp] theorem Block.appendRx_wvalue (b : Block) (x : Byte) : (b.appendRx x).wvalue = b.wvalue := rfl
@[simp] theorem Block.appendRx_txbuf (b : Block) (x : Byte) : (b.appendRx x).txbuf = b.txbuf := rfl
@[simp] theorem Block.appendRx_txlen (b : Block) (x : Byte) : (b.appendRx x).txlen = b.txlen := rfl
@[simp] theorem Block.appendRx_expbuf (b : Block) (x : Byte) : (b.appendRx x).expbuf = b.expbuf := rfl
@[simp] theorem Block.appendRx_expvalid (b : Block) (x : Byte) : (b.appendRx x).expvalid = b.expvalid := rfl
@[simp] theorem Block.appendRx_rxbuf (b : Block) (x : Byte) : (b.appendRx x).rxbuf = b.rxbuf.setIfInBounds b.rxcnt x := rfl
@[simp] theorem Block.appendRx_rxcnt (b : Block) (x : Byte) : (b.appendRx x).rxcnt = b.rxcnt + 1 := rfl
@[simp] theorem Block.appendRx_rxovf (b : Block) (x : Byte) : (b.appendRx x).rxovf = b.rxovf := rfl
@[simp] theorem Block.appendRx_rdval (b : Block) (x : Byte) : (b.appendRx x).rdval = b.rdval := rfl
@[simp] theorem Block.appendRx_rdbc (b : Block) (x : Byte) : (b.appendRx x).rdbc = b.rdbc := rfl
@[simp] theorem Block.appendRx_err (b : Block) (x : Byte) : (b.appendRx x).err = b.err := rfl
@[simp] theorem Block.appendRx_crcok (b : Block) (x : Byte) : (b.appendRx x).crcok = b.crcok := rfl

@[simp] theorem Block.writeNode_crc (b : Block) (v : Word) : (b.writeNode v).crc = b.crc := rfl
@[simp] theorem Block.writeNode_node (b : Block) (v : Word) : (b.writeNode v).node = v.extractLsb' 0 8 := rfl
@[simp] theorem Block.writeNode_regaddr (b : Block) (v : Word) : (b.writeNode v).regaddr = b.regaddr := rfl
@[simp] theorem Block.writeNode_wvalue (b : Block) (v : Word) : (b.writeNode v).wvalue = b.wvalue := rfl
@[simp] theorem Block.writeNode_txbuf (b : Block) (v : Word) : (b.writeNode v).txbuf = b.txbuf := rfl
@[simp] theorem Block.writeNode_txlen (b : Block) (v : Word) : (b.writeNode v).txlen = b.txlen := rfl
@[simp] theorem Block.writeNode_expbuf (b : Block) (v : Word) : (b.writeNode v).expbuf = b.expbuf := rfl
@[simp] theorem Block.writeNode_expvalid (b : Block) (v : Word) : (b.writeNode v).expvalid = b.expvalid := rfl
@[simp] theorem Block.writeNode_rxbuf (b : Block) (v : Word) : (b.writeNode v).rxbuf = b.rxbuf := rfl
@[simp] theorem Block.writeNode_rxcnt (b : Block) (v : Word) : (b.writeNode v).rxcnt = b.rxcnt := rfl
@[simp] theorem Block.writeNode_rxovf (b : Block) (v : Word) : (b.writeNode v).rxovf = b.rxovf := rfl
@[simp] theorem Block.writeNode_rdval (b : Block) (v : Word) : (b.writeNode v).rdval = b.rdval := rfl
@[simp] theorem Block.writeNode_rdbc (b : Block) (v : Word) : (b.writeNode v).rdbc = b.rdbc := rfl
@[simp] theorem Block.writeNode_err (b : Block) (v : Word) : (b.writeNode v).err = b.err := rfl
@[simp] theorem Block.writeNode_crcok (b : Block) (v : Word) : (b.writeNode v).crcok = b.crcok := rfl

@[simp] theorem Block.writeRegaddr_crc (b : Block) (v : Word) : (b.writeRegaddr v).crc = b.crc := rfl
@[simp] theorem Block.writeRegaddr_node (b : Block) (v : Word) : (b.writeRegaddr v).node = b.node := rfl
@[simp] theorem Block.writeRegaddr_regaddr (b : Block) (v : Word) : (b.writeRegaddr v).regaddr = v.extractLsb' 0 16 := rfl
@[simp] theorem Block.writeRegaddr_wvalue (b : Block) (v : Word) : (b.writeRegaddr v).wvalue = b.wvalue := rfl
@[simp] theorem Block.writeRegaddr_txbuf (b : Block) (v : Word) : (b.writeRegaddr v).txbuf = b.txbuf := rfl
@[simp] theorem Block.writeRegaddr_txlen (b : Block) (v : Word) : (b.writeRegaddr v).txlen = b.txlen := rfl
@[simp] theorem Block.writeRegaddr_expbuf (b : Block) (v : Word) : (b.writeRegaddr v).expbuf = b.expbuf := rfl
@[simp] theorem Block.writeRegaddr_expvalid (b : Block) (v : Word) : (b.writeRegaddr v).expvalid = b.expvalid := rfl
@[simp] theorem Block.writeRegaddr_rxbuf (b : Block) (v : Word) : (b.writeRegaddr v).rxbuf = b.rxbuf := rfl
@[simp] theorem Block.writeRegaddr_rxcnt (b : Block) (v : Word) : (b.writeRegaddr v).rxcnt = b.rxcnt := rfl
@[simp] theorem Block.writeRegaddr_rxovf (b : Block) (v : Word) : (b.writeRegaddr v).rxovf = b.rxovf := rfl
@[simp] theorem Block.writeRegaddr_rdval (b : Block) (v : Word) : (b.writeRegaddr v).rdval = b.rdval := rfl
@[simp] theorem Block.writeRegaddr_rdbc (b : Block) (v : Word) : (b.writeRegaddr v).rdbc = b.rdbc := rfl
@[simp] theorem Block.writeRegaddr_err (b : Block) (v : Word) : (b.writeRegaddr v).err = b.err := rfl
@[simp] theorem Block.writeRegaddr_crcok (b : Block) (v : Word) : (b.writeRegaddr v).crcok = b.crcok := rfl

@[simp] theorem Block.writeWvalue_crc (b : Block) (v : Word) : (b.writeWvalue v).crc = b.crc := rfl
@[simp] theorem Block.writeWvalue_node (b : Block) (v : Word) : (b.writeWvalue v).node = b.node := rfl
@[simp] theorem Block.writeWvalue_regaddr (b : Block) (v : Word) : (b.writeWvalue v).regaddr = b.regaddr := rfl
@[simp] theorem Block.writeWvalue_wvalue (b : Block) (v : Word) : (b.writeWvalue v).wvalue = v := rfl
@[simp] theorem Block.writeWvalue_txbuf (b : Block) (v : Word) : (b.writeWvalue v).txbuf = b.txbuf := rfl
@[simp] theorem Block.writeWvalue_txlen (b : Block) (v : Word) : (b.writeWvalue v).txlen = b.txlen := rfl
@[simp] theorem Block.writeWvalue_expbuf (b : Block) (v : Word) : (b.writeWvalue v).expbuf = b.expbuf := rfl
@[simp] theorem Block.writeWvalue_expvalid (b : Block) (v : Word) : (b.writeWvalue v).expvalid = b.expvalid := rfl
@[simp] theorem Block.writeWvalue_rxbuf (b : Block) (v : Word) : (b.writeWvalue v).rxbuf = b.rxbuf := rfl
@[simp] theorem Block.writeWvalue_rxcnt (b : Block) (v : Word) : (b.writeWvalue v).rxcnt = b.rxcnt := rfl
@[simp] theorem Block.writeWvalue_rxovf (b : Block) (v : Word) : (b.writeWvalue v).rxovf = b.rxovf := rfl
@[simp] theorem Block.writeWvalue_rdval (b : Block) (v : Word) : (b.writeWvalue v).rdval = b.rdval := rfl
@[simp] theorem Block.writeWvalue_rdbc (b : Block) (v : Word) : (b.writeWvalue v).rdbc = b.rdbc := rfl
@[simp] theorem Block.writeWvalue_err (b : Block) (v : Word) : (b.writeWvalue v).err = b.err := rfl
@[simp] theorem Block.writeWvalue_crcok (b : Block) (v : Word) : (b.writeWvalue v).crcok = b.crcok := rfl

@[simp] theorem Block.illegalCommand_crc (b : Block) : b.illegalCommand.crc = b.crc := rfl
@[simp] theorem Block.illegalCommand_node (b : Block) : b.illegalCommand.node = b.node := rfl
@[simp] theorem Block.illegalCommand_regaddr (b : Block) : b.illegalCommand.regaddr = b.regaddr := rfl
@[simp] theorem Block.illegalCommand_wvalue (b : Block) : b.illegalCommand.wvalue = b.wvalue := rfl
@[simp] theorem Block.illegalCommand_txbuf (b : Block) : b.illegalCommand.txbuf = b.txbuf := rfl
@[simp] theorem Block.illegalCommand_txlen (b : Block) : b.illegalCommand.txlen = b.txlen := rfl
@[simp] theorem Block.illegalCommand_expbuf (b : Block) : b.illegalCommand.expbuf = b.expbuf := rfl
@[simp] theorem Block.illegalCommand_expvalid (b : Block) : b.illegalCommand.expvalid = b.expvalid := rfl
@[simp] theorem Block.illegalCommand_rxbuf (b : Block) : b.illegalCommand.rxbuf = b.rxbuf := rfl
@[simp] theorem Block.illegalCommand_rxcnt (b : Block) : b.illegalCommand.rxcnt = b.rxcnt := rfl
@[simp] theorem Block.illegalCommand_rxovf (b : Block) : b.illegalCommand.rxovf = b.rxovf := rfl
@[simp] theorem Block.illegalCommand_rdval (b : Block) : b.illegalCommand.rdval = b.rdval := rfl
@[simp] theorem Block.illegalCommand_rdbc (b : Block) : b.illegalCommand.rdbc = b.rdbc := rfl
@[simp] theorem Block.illegalCommand_err (b : Block) : b.illegalCommand.err = .cmdError := rfl
@[simp] theorem Block.illegalCommand_crcok (b : Block) : b.illegalCommand.crcok = b.crcok := rfl

@[simp] theorem State.refuseAccess_block (s : State) (off : Nat) : (s.refuseAccess off).block = s.block := rfl
@[simp] theorem State.refuseAccess_pending (s : State) (off : Nat) : (s.refuseAccess off).pending = s.pending := rfl
@[simp] theorem State.refuseAccess_response (s : State) (off : Nat) : (s.refuseAccess off).response = .fault (.busError off) := rfl
@[simp] theorem State.resetBlock_block (s : State) : s.resetBlock.block = Block.reset := rfl
@[simp] theorem State.resetBlock_pending (s : State) : s.resetBlock.pending = s.pending := rfl
@[simp] theorem State.resetBlock_response (s : State) : s.resetBlock.response = .none := rfl

/-- A command that completes changes the block alone. -/
@[simp] theorem State.complete_eq (s : State) (f : Block → Block) :
    s.complete f = .next { s with block := f s.block } := rfl

end Sys2Proof.Machine
end

