-- ==== Sys2Proof/Laws/Ops.lean ====
section
/-! SUPPORT. What each shared operation can do, said once: buffers, the register map, every instruction's effect on the
block, and the step. -/

namespace Sys2Proof.Machine

open Sys2Proof

/-! ## Buffers -/

@[simp] theorem bufferOf_getElem (n : Nat) (f : List Byte) (i : Nat) (h : i < n) :
    (bufferOf n f)[i] = f.getD i 0 := by simp [bufferOf]

/-- A buffer that holds a frame is the frame and zeros past it (R46). -/
theorem bufferOf_toList {n : Nat} {f : List Byte} (h : f.length ≤ n) :
    (bufferOf n f).toList = f ++ List.replicate (n - f.length) 0 := by
  apply List.ext_getElem
  · simp; omega
  · intro i h1 h2
    simp only [Vector.length_toList] at h1
    rw [Vector.getElem_toList, bufferOf_getElem, List.getElem_append]
    split
    · rw [List.getD_eq_getElem _ _ ‹_›]
    · rw [List.getElem_replicate, List.getD_eq_default _ _ (by omega)]

theorem firstBytes_bufferOf {n : Nat} {f : List Byte} (h : f.length ≤ n) :
    firstBytes (bufferOf n f) f.length = f := by
  rw [firstBytes, bufferOf_toList h, List.take_left']
  rfl

/-- Filling and reading a buffer of the frame's own length (EXPBUF). -/
theorem bufferOf_toList_self (f : List Byte) : (bufferOf f.length f).toList = f := by
  rw [bufferOf_toList (Nat.le_refl _), Nat.sub_self, List.replicate_zero, List.append_nil]

/-- Putting one more byte behind a frame in a buffer. -/
theorem bufferOf_push {n : Nat} {f : List Byte} (x : Byte) :
    (bufferOf n f).setIfInBounds f.length x = bufferOf n (f ++ [x]) := by
  apply Vector.ext
  intro i hi
  rw [Vector.getElem_setIfInBounds, bufferOf_getElem, bufferOf_getElem]
  split
  · subst_vars
    simp
  · rcases Nat.lt_trichotomy i f.length with hlt | heq | hgt
    · rw [List.getD_eq_getElem _ _ hlt, List.getD_eq_getElem _ _ (by simp; omega), List.getElem_append_left hlt]
    · omega
    · rw [List.getD_eq_default _ _ (by omega), List.getD_eq_default _ _ (by simp; omega)]

/-! ## The register map (R34) -/

theorem regAt_txbuf (i : Fin 16) : regAt (0x40 + 4 * i.val) = some (.txbuf i) := by
  revert i; decide

theorem regAt_rxbuf (i : Fin 16) : regAt (0x80 + 4 * i.val) = some (.rxbuf i) := by
  revert i; decide

theorem regAt_expbuf (i : Fin 9) : regAt (0xC0 + 4 * i.val) = some (.expbuf i) := by
  revert i; decide

/-- The mapped offsets, read off the map. -/
theorem regAt_eq_none (off : Nat) (h : off < 0x100) :
    regAt off = none ↔ (0x20 ≤ off ∧ off < 0x40) ∨ 0xE4 ≤ off := by
  have hk : off / 4 < 64 := by omega
  have hlo : 4 * (off / 4) ≤ off := by omega
  have hhi : off < 4 * (off / 4) + 4 := by omega
  unfold regAt
  generalize off / 4 = k at *
  interval_cases k <;> simp <;> omega

/-- The registers that take a write: CMD, NODE, REGADDR, WVALUE (R54). -/
def BlockReg.writable : BlockReg → Bool
  | .cmd | .node | .regaddr | .wvalue => true
  | .status | .crc | .rdval | .rdbc | .txbuf _ | .rxbuf _ | .expbuf _ => false

/-- Where the writable registers are. -/
theorem regAt_writable (off : Nat) (h : off < 0x100) (h4 : off % 4 = 0) :
    (regAt off).any BlockReg.writable = true ↔ off = 0x00 ∨ off = 0x08 ∨ off = 0x0C ∨ off = 0x10 := by
  have hk : off / 4 < 64 := by omega
  have he : off = 4 * (off / 4) := by omega
  unfold regAt
  generalize off / 4 = k at *
  interval_cases k <;> simp [BlockReg.writable] <;> omega

/-! ## The STATUS word (R36) -/

theorem toNat_append_mul {v w : Nat} (x : BitVec v) (y : BitVec w) :
    (x ++ y).toNat = x.toNat * 2 ^ w + y.toNat := by
  rw [BitVec.toNat_append, ← Nat.shiftLeft_add_eq_or_of_lt y.isLt, Nat.shiftLeft_eq]

/-- The STATUS word as a number: each field times the weight of its lowest bit. -/
theorem statusWord_toNat (b : Block) (ht : b.txlen ≤ 16) (hr : b.rxcnt ≤ 16) :
    (statusWord b).toNat = b.rxcnt * 2 ^ 16 + b.txlen * 2 ^ 8 + b.rxovf.toNat * 2 ^ 4 + b.expvalid.toNat * 2 ^ 3 +
      b.crcok.toNat * 2 ^ 2 + b.err.code.toNat := by
  simp only [statusWord, flagBit, toNat_append_mul, BitVec.toNat_ofNat, BitVec.toNat_ofBool]
  omega

/-- Bits [1:0] of STATUS are the outcome code, whatever the counters are. -/
theorem statusWord_err (b : Block) : (statusWord b).extractLsb' 0 2 = b.err.code := by
  apply BitVec.eq_of_toNat_eq
  have := b.err.code.isLt
  simp only [statusWord, flagBit, toNat_append_mul, BitVec.extractLsb'_toNat, Nat.shiftRight_eq_div_pow]
  omega

/-! ## The instructions -/

/-- The whole effect of an instruction: what it does to the block. -/
def blockEffect : Instr → Block → Block
  | .nop => fun b => b.setErr .ok
  | .crcInit => Block.crcInit
  | .crcByte x => Block.crcByte x
  | .buildWrite => Block.buildWrite
  | .buildRead => Block.buildRead
  | .txClear => Block.txClear
  | .txPush x => Block.txPush x
  | .txAppendCrc => Block.txAppendCrc
  | .rxClear => Block.rxClear
  | .rxPush x => Block.rxPush x
  | .rxVerifyCrc => Block.rxVerifyCrc
  | .checkWrite => Block.checkWrite
  | .parseRead => Block.parseRead
  | .frameWriteRequest n a v => Block.requestWrite n a v
  | .frameWriteResponse n a crc => fun b => (b.rxFrame (writeResponse n a crc)).checkWrite
  | .frameReadRequest n a => Block.requestRead n a
  | .frameReadResponse n func count v crc => fun b => (b.rxFrame (readResponse n func count v crc)).parseRead

/-- Every instruction gives a next state and changes the block alone. -/
theorem exec_eq_complete (i : Instr) (s : State) : exec i s = s.complete (blockEffect i) := by
  cases i <;> rfl

/-- What a word written to CMD does to the block. -/
def wordEffect (w : Word) : Block → Block :=
  match decodeCommand w with
  | .ok i => blockEffect i
  | .error _ => Block.illegalCommand

theorem runCommand_eq_complete (w : Word) (s : State) : runCommand w s = s.complete (wordEffect w) := by
  unfold runCommand wordEffect
  cases decodeCommand w <;> simp [exec_eq_complete]

/-- A word written to CMD is an illegal command or runs the instruction it decodes to. -/
theorem wordEffect_cases (w : Word) :
    wordEffect w = Block.illegalCommand ∨ ∃ i, decodeCommand w = .ok i ∧ wordEffect w = blockEffect i := by
  unfold wordEffect
  cases decodeCommand w with
  | ok i => exact .inr ⟨i, rfl, rfl⟩
  | error _ => exact .inl rfl

/-! ## The host port -/

@[simp] theorem hostRead_block (width off : Nat) (s : State) : (hostRead width off s).block = s.block := by
  unfold hostRead
  repeat' split
  all_goals rfl

@[simp] theorem hostRead_pending (width off : Nat) (s : State) : (hostRead width off s).pending = s.pending := by
  unfold hostRead
  repeat' split
  all_goals rfl

/-- The response to a read depends on the block alone. -/
theorem hostRead_response_congr (width off : Nat) {s t : State} (h : s.block = t.block) :
    (hostRead width off s).response = (hostRead width off t).response := by
  unfold hostRead
  repeat' split
  all_goals first | rfl | simp [h]

/-- Everything a host write can do. -/
theorem hostWrite_cases (width off : Nat) (v : Word) (s : State) :
    (width = 4 ∧ off = 0x00 ∧ hostWrite width off v s = runCommand v { s with response := .done }) ∨
    (width = 4 ∧ off = 0x08 ∧
      hostWrite width off v s = .next { s with block := s.block.writeNode v, response := .done }) ∨
    (width = 4 ∧ off = 0x0C ∧
      hostWrite width off v s = .next { s with block := s.block.writeRegaddr v, response := .done }) ∨
    (width = 4 ∧ off = 0x10 ∧
      hostWrite width off v s = .next { s with block := s.block.writeWvalue v, response := .done }) ∨
    (off < 0x100 ∧ hostWrite width off v s = .next (s.refuseAccess off)) ∨
    (0x100 ≤ off ∧ hostWrite width off v s = .next { s with response := .platform off }) := by
  by_cases hw : off < 0x100
  · by_cases hl : accessLegal width off = true
    · have hl' : width = 4 ∧ off % 4 = 0 := by simpa [accessLegal, Config.busBytes] using hl
      obtain ⟨h4, hm⟩ := hl'
      have hwr := regAt_writable off hw hm
      have hunf : hostWrite width off v s =
          match regAt off with
          | some r => writeReg r off v s
          | none => .next (s.refuseAccess off) := by
        rw [hostWrite, if_pos (by simpa [Config.windowSize] using hw), if_pos hl] <;> rfl
      by_cases hin : off = 0x00 ∨ off = 0x08 ∨ off = 0x0C ∨ off = 0x10
      · rcases hin with rfl | rfl | rfl | rfl
        · exact .inl ⟨h4, rfl, hunf⟩
        · exact .inr (.inl ⟨h4, rfl, hunf⟩)
        · exact .inr (.inr (.inl ⟨h4, rfl, hunf⟩))
        · exact .inr (.inr (.inr (.inl ⟨h4, rfl, hunf⟩)))
      · refine .inr (.inr (.inr (.inr (.inl ⟨hw, ?_⟩))))
        rw [hunf]
        cases hr : regAt off with
        | none => rfl
        | some r =>
          have : r.writable = false := by
            have := mt hwr.mp hin
            simpa [hr] using this
          cases r <;> first | rfl | simp [BlockReg.writable] at this
    · exact .inr (.inr (.inr (.inr (.inl ⟨hw, by simp [hostWrite, Config.windowSize, hw, hl]⟩))))
  · exact .inr (.inr (.inr (.inr (.inr ⟨by omega, by simp [hostWrite, Config.windowSize, hw]⟩))))

/-! ## The step -/

@[simp] theorem step_idle (s : State) (h : s.pending = []) : step s = .next s := by
  simp [step, takeEvent, h]

theorem step_event (s : State) {e : HostEvent} {rest : List HostEvent} (h : s.pending = e :: rest) :
    step s = hostEvent e { s with pending := rest } := by
  simp [step, takeEvent, h]

/-- Every effect a host event can have on the block. -/
theorem hostEvent_block {e : HostEvent} {s t : State} (h : hostEvent e s = .next t) :
    t.pending = s.pending ∧
    ((t.block = s.block ∧ (∀ w, e ≠ .write 4 0x00 w)) ∨
    (∃ w, e = .write 4 0x00 w ∧ t.block = wordEffect w s.block) ∨
    (∃ v, e = .write 4 0x08 v ∧ t.block = s.block.writeNode v) ∨
    (∃ v, e = .write 4 0x0C v ∧ t.block = s.block.writeRegaddr v) ∨
    (∃ v, e = .write 4 0x10 v ∧ t.block = s.block.writeWvalue v) ∨
    (e = .reset ∧ t.block = Block.reset) ∨
    (∃ bytes i, e = .frame bytes ∧ decodeFrame bytes = .ok i ∧ t.block = blockEffect i s.block)) := by
  cases e with
  | read width off =>
    simp only [hostEvent, Host.Outcome.next.injEq] at h
    subst h
    exact ⟨by simp, .inl ⟨by simp, by simp⟩⟩
  | write width off v =>
    simp only [hostEvent] at h
    obtain ⟨rfl, rfl, h'⟩ | ⟨rfl, rfl, h'⟩ | ⟨rfl, rfl, h'⟩ | ⟨rfl, rfl, h'⟩ | ⟨hw, h'⟩ | ⟨hw, h'⟩ :=
      hostWrite_cases width off v s
    · rw [h', runCommand_eq_complete, State.complete_eq] at h
      cases h
      exact ⟨rfl, .inr (.inl ⟨v, rfl, rfl⟩)⟩
    · rw [h'] at h
      cases h
      exact ⟨rfl, .inr (.inr (.inl ⟨v, rfl, rfl⟩))⟩
    · rw [h'] at h
      cases h
      exact ⟨rfl, .inr (.inr (.inr (.inl ⟨v, rfl, rfl⟩)))⟩
    · rw [h'] at h
      cases h
      exact ⟨rfl, .inr (.inr (.inr (.inr (.inl ⟨v, rfl, rfl⟩))))⟩
    · by_cases hc : width = 4 ∧ off = 0
      · obtain ⟨rfl, rfl⟩ := hc
        rw [show hostWrite 4 0 v s = runCommand v { s with response := .done } from rfl, runCommand_eq_complete,
          State.complete_eq] at h
        cases h
        exact ⟨rfl, .inr (.inl ⟨v, rfl, rfl⟩)⟩
      · rw [h'] at h
        cases h
        exact ⟨rfl, .inl ⟨rfl, fun w hw' => hc (by cases hw'; exact ⟨rfl, rfl⟩)⟩⟩
    · rw [h'] at h
      cases h
      exact ⟨rfl, .inl ⟨rfl, fun w hw' => by cases hw'; omega⟩⟩
  | frame bytes =>
    simp only [hostEvent, runFrame] at h
    split at h
    · rename_i i hi
      rw [exec_eq_complete, State.complete_eq] at h
      cases h
      exact ⟨rfl, .inr (.inr (.inr (.inr (.inr (.inr ⟨bytes, i, rfl, hi, rfl⟩)))))⟩
    · cases h
  | reset =>
    simp only [hostEvent, Host.Outcome.next.injEq] at h
    subst h
    exact ⟨rfl, .inr (.inr (.inr (.inr (.inr (.inl ⟨rfl, rfl⟩)))))⟩
  | wait ms =>
    simp only [hostEvent, Host.Outcome.next.injEq] at h
    subst h
    exact ⟨rfl, .inl ⟨rfl, by simp⟩⟩

end Sys2Proof.Machine
end

