-- ==== Sys2Proof/Laws/Commands.lean ====
section
/-! SUPPORT. What each command with a condition does in each of its cases, what runs of host events do, and that the
invariant's clauses are kept by the buffer operations. -/

namespace Sys2Proof.Machine

open Sys2Proof

/-! ## The fields of a command word (R71, R76) -/

theorem opField_commandWord (imm op : Byte) : opField (commandWord imm op) = op := by
  apply BitVec.eq_of_toNat_eq
  have := imm.isLt
  have := op.isLt
  simp only [opField, commandWord, BitVec.extractLsb'_toNat, BitVec.toNat_setWidth, toNat_append_byte,
    Nat.shiftRight_eq_div_pow]
  omega

theorem immField_commandWord (imm op : Byte) : immField (commandWord imm op) = imm := by
  apply BitVec.eq_of_toNat_eq
  have := imm.isLt
  have := op.isLt
  simp only [immField, commandWord, BitVec.extractLsb'_toNat, BitVec.toNat_setWidth, toNat_append_byte,
    Nat.shiftRight_eq_div_pow]
  omega

theorem resField_commandWord (imm op : Byte) : resField (commandWord imm op) = 0 := by
  apply BitVec.eq_of_toNat_eq
  have := imm.isLt
  have := op.isLt
  simp only [resField, commandWord, BitVec.extractLsb'_toNat, BitVec.toNat_setWidth, toNat_append_byte,
    Nat.shiftRight_eq_div_pow, BitVec.ofNat_eq_ofNat, BitVec.toNat_ofNat]
  omega

/-- A word with RES = 0 is the word of its own fields. -/
theorem eq_commandWord {w : Word} (h : resField w = 0) : w = commandWord (immField w) (opField w) := by
  have h' := congrArg BitVec.toNat h
  apply BitVec.eq_of_toNat_eq
  have := w.isLt
  simp only [opField, immField, resField, commandWord, BitVec.extractLsb'_toNat, BitVec.toNat_setWidth,
    toNat_append_byte, Nat.shiftRight_eq_div_pow, BitVec.ofNat_eq_ofNat, BitVec.toNat_ofNat] at h' ⊢
  omega

/-- The decoder sees the fields of an assembled word. -/
theorem decodeCommand_commandWord (imm op : Byte) : decodeCommand (commandWord imm op) = decodeOp op imm := by
  rw [decodeCommand, if_pos (resField_commandWord _ _), opField_commandWord, immField_commandWord]

/-! ## Commands by case -/

theorem Block.txPush_of_room {b : Block} (x : Byte) (h : b.txlen < 16) :
    b.txPush x = (b.appendTx x).setErr .ok := if_pos h

theorem Block.txPush_of_full {b : Block} (x : Byte) (h : ¬ b.txlen < 16) : b.txPush x = b.setErr .cmdError := if_neg h

theorem Block.txAppendCrc_of_room {b : Block} (h : b.txlen ≤ 14) :
    b.txAppendCrc = ((b.appendTx ((crc16 b.txBytes).extractLsb' 8 8)).appendTx
      ((crc16 b.txBytes).extractLsb' 0 8)).setErr .ok := if_pos h

/-- R127, R129: where TX_APPEND_CRC has room, the request's bytes are the old ones and their CRC. -/
theorem Block.txAppendCrc_txBytes {b : Block} (h : b.txlen ≤ 14) :
    b.txAppendCrc.txBytes = appendCrc b.txBytes := by
  rw [Block.txAppendCrc_of_room h]
  show ((b.txbuf.setIfInBounds b.txlen ((crc16 b.txBytes).extractLsb' 8 8)).setIfInBounds (b.txlen + 1)
    ((crc16 b.txBytes).extractLsb' 0 8)).toList.take (b.txlen + 2) = b.txBytes ++ be16 (crc16 b.txBytes)
  generalize crc16 b.txBytes = c
  have hl : b.txBytes.length = b.txlen := by simp [Block.txBytes, firstBytes]; omega
  apply List.ext_getElem
  · simp [hl, be16]; omega
  · intro i h1 h2
    simp only [List.getElem_take, Vector.getElem_toList, Vector.getElem_setIfInBounds]
    have hi : i < b.txlen + 2 := by simp [hl, be16] at h2; omega
    rcases Nat.lt_trichotomy i b.txlen with hlt | heq | hgt
    · rw [if_neg (by omega), if_neg (by omega), List.getElem_append_left (by omega)]
      simp [Block.txBytes, firstBytes]
    · rw [if_neg (by omega), if_pos heq.symm, List.getElem_append_right (by omega)]
      simp [be16, hl, heq]
    · have heq : i = b.txlen + 1 := by omega
      rw [if_pos heq.symm, List.getElem_append_right (by omega)]
      simp [be16, hl, heq]

theorem Block.txAppendCrc_of_full {b : Block} (h : ¬ b.txlen ≤ 14) : b.txAppendCrc = b.setErr .cmdError := if_neg h

theorem Block.rxPush_of_room {b : Block} (x : Byte) (h : b.rxcnt < 16) :
    b.rxPush x = (b.appendRx x).setErr .ok := if_pos h

theorem Block.rxPush_of_full {b : Block} (x : Byte) (h : ¬ b.rxcnt < 16) :
    b.rxPush x = { b with rxovf := true, err := .ok } := if_neg h

/-- R141: the length test. -/
theorem lenOk_iff (b : Block) : lenOk b = true ↔ b.rxovf = false ∧ b.rxcnt = 9 := by
  simp [lenOk, Config.responseLength]

/-- R142.1, R142.2: the tests both checks make, of a response of the right length. -/
theorem responseOutcome_of_lenOk {b : Block} (h1 : b.rxovf = false) (h2 : b.rxcnt = 9) :
    responseOutcome b = if verifyCrc (b.rxbuf.toList.take 9) then .ok else .invalidCrc := by
  rw [responseOutcome, if_pos ((lenOk_iff b).mpr ⟨h1, h2⟩)]
  rfl

theorem responseOutcome_of_not_lenOk {b : Block} (h : ¬ (b.rxovf = false ∧ b.rxcnt = 9)) :
    responseOutcome b = .invalidResponse := by
  rw [responseOutcome, if_neg (mt (lenOk_iff b).mp h)]

/-- R142.3: the content test of a write response. -/
theorem contentOutcome_eq (b : Block) :
    contentOutcome b = if b.rxbuf.toList.take 9 = b.expbuf.toList then .ok else .invalidResponse := rfl

/-- R146: CHECK_WRITE with a valid expected response, in one equation. -/
theorem Block.checkWrite_of_valid {b : Block} (h : b.expvalid = true) :
    b.checkWrite =
      match responseOutcome b with
      | .ok => b.setCheck true (contentOutcome b)
      | e => b.setCheck false e := by
  rw [Block.checkWrite, if_neg (by simp [h])] <;> rfl

theorem Block.checkWrite_of_invalid {b : Block} (h : b.expvalid = false) : b.checkWrite = b.setErr .cmdError :=
  if_pos h

/-- The tests both checks make do not answer CMD_ERROR. -/
theorem responseOutcome_ne_cmdError (b : Block) : responseOutcome b ≠ .cmdError := by
  unfold responseOutcome crcOutcome
  repeat' split
  all_goals simp

/-! ## What each command can change -/

/-- R123: the fields BUILD_WRITE writes. -/
theorem Block.buildWrite_eq (b : Block) :
    b.buildWrite =
      { b with txbuf := bufferOf 16 (writeRequest b.node b.regaddr b.wvalue), txlen := 13,
               expbuf := bufferOf 9 (writeExpected b.node b.regaddr), expvalid := true, err := .ok } := by
  simp [Block.buildWrite, Block.setRequest]

/-- R124: the fields BUILD_READ writes. -/
theorem Block.buildRead_eq (b : Block) :
    b.buildRead =
      { b with txbuf := bufferOf 16 (readRequest b.node b.regaddr), txlen := 8, expvalid := false, err := .ok } := by
  simp [Block.buildRead, Block.setRequest]

/-- R81, R171: the fields a write request writes. -/
theorem Block.requestWrite_eq (n : Byte) (a : Half) (v : Word) (b : Block) :
    b.requestWrite n a v =
      { b with node := n, regaddr := a, wvalue := v, txbuf := bufferOf 16 (writeRequest n a v), txlen := 13,
               expbuf := bufferOf 9 (writeExpected n a), expvalid := true, err := .ok } := by
  rw [Block.requestWrite, Block.buildWrite_eq]
  simp [Block.writeNode, Block.writeRegaddr, Block.writeWvalue, extract_setWidth_byte, extract_setWidth_half]

/-- R83, R172: the fields a read request writes. -/
theorem Block.requestRead_eq (n : Byte) (a : Half) (b : Block) :
    b.requestRead n a =
      { b with node := n, regaddr := a, txbuf := bufferOf 16 (readRequest n a), txlen := 8, expvalid := false,
               err := .ok } := by
  rw [Block.requestRead, Block.buildRead_eq]
  simp [Block.writeNode, Block.writeRegaddr, extract_setWidth_byte, extract_setWidth_half]

/-- R126: TX_PUSH adds to the request, or only reports CMD_ERROR. -/
theorem Block.txPush_changes (x : Byte) (b : Block) :
    (∃ buf n, b.txPush x = { b with txbuf := buf, txlen := n, err := .ok }) ∨ b.txPush x = b.setErr .cmdError := by
  unfold Block.txPush
  split
  · exact .inl ⟨_, _, rfl⟩
  · exact .inr rfl

/-- R127: TX_APPEND_CRC adds to the request, or only reports CMD_ERROR. -/
theorem Block.txAppendCrc_changes (b : Block) :
    (∃ buf n, b.txAppendCrc = { b with txbuf := buf, txlen := n, err := .ok }) ∨
      b.txAppendCrc = b.setErr .cmdError := by
  unfold Block.txAppendCrc
  split
  · exact .inl ⟨_, _, rfl⟩
  · exact .inr rfl

/-- R144: RX_PUSH changes the receive buffer, its count and its overflow flag, and is never an error. -/
theorem Block.rxPush_changes (x : Byte) (b : Block) :
    ∃ buf n ovf, b.rxPush x = { b with rxbuf := buf, rxcnt := n, rxovf := ovf, err := .ok } := by
  unfold Block.rxPush
  split
  · exact ⟨_, _, _, rfl⟩
  · exact ⟨_, _, _, rfl⟩

/-- R145: RX_VERIFY_CRC changes CRCOK and ERR, and never reports CMD_ERROR. -/
theorem Block.rxVerifyCrc_changes (b : Block) :
    ∃ c e, e ≠ .cmdError ∧ b.rxVerifyCrc = { b with crcok := c, err := e } := by
  unfold Block.rxVerifyCrc
  split
  · exact ⟨false, .invalidResponse, by decide, rfl⟩
  · refine ⟨_, _, ?_, rfl⟩
    unfold crcOutcome
    split <;> decide

/-- R146: CHECK_WRITE changes CRCOK and ERR, and CRCOK not where it reports CMD_ERROR. -/
theorem Block.checkWrite_changes (b : Block) :
    ∃ c e, (e = .cmdError → c = b.crcok) ∧ b.checkWrite = { b with crcok := c, err := e } := by
  unfold Block.checkWrite
  split
  · exact ⟨b.crcok, .cmdError, fun _ => rfl, rfl⟩
  · split
    · refine ⟨true, contentOutcome b, ?_, rfl⟩
      unfold contentOutcome
      split <;> simp
    · exact ⟨false, responseOutcome b, fun h => absurd h (responseOutcome_ne_cmdError b), rfl⟩

/-- R147: PARSE_READ gives a result with OK, or reports an error and changes ERR and CRCOK alone. -/
theorem Block.parseRead_changes (b : Block) :
    (∃ e, e ≠ .ok ∧ e ≠ .cmdError ∧ b.parseRead = { b with crcok := false, err := e }) ∨
      ∃ count v, b.parseRead = { b with crcok := true, err := .ok, rdbc := count, rdval := v } := by
  unfold Block.parseRead
  split
  · exact .inr ⟨_, _, rfl⟩
  · rename_i h
    exact .inl ⟨responseOutcome b, h, responseOutcome_ne_cmdError b, rfl⟩

/-! ## Runs of host events -/

/-- A run goes on from the state a step answers. -/
theorem core_run_succ (M : Host.Core) (k : Nat) (s t : M.State) (h : M.step s = .next t) :
    M.run (k + 1) s = M.run k t := by
  rw [Host.Core.run, h]

theorem runEvents_cons (e : HostEvent) (es : List HostEvent) (s : State) :
    runEvents (e :: es) s =
      match hostEvent e s with
      | .next t => runEvents es t
      | .fault r => .fault r
      | .refused r => .refused r := by
  rw [runEvents, step_event _ rfl] <;> rfl

theorem runEvents_append {es : List HostEvent} {s t : State} (fs : List HostEvent) (h : runEvents es s = .next t) :
    runEvents (es ++ fs) s = runEvents fs t := by
  induction es generalizing s with
  | nil => cases h; rfl
  | cons e es ih =>
    rw [List.cons_append, runEvents_cons]
    rw [runEvents_cons] at h
    split at h
    · exact ih h
    · cases h
    · cases h

/-- A command issued by the host runs its effect on the block. -/
theorem hostEvent_command {w : Word} {i : Instr} (h : decodeCommand w = .ok i) (s : State) :
    hostEvent (.write Config.busBytes 0x00 w) s = .next { s with block := blockEffect i s.block, response := .done } := by
  show runCommand w { s with response := .done } = _
  rw [runCommand, h]
  exact exec_eq_complete i _

/-- Commands issued one after another compose their effects; `k` says what each of them decodes to. -/
theorem runEvents_commands {α : Type} (xs : List α) (c : α → Instr)
    (hc : ∀ x, ∃ w, encode (c x) = .command w ∧ decodeCommand w = .ok (c x)) (s : State) :
    ∃ r, runEvents (xs.map fun x => issue (c x)) s =
      .next { s with block := xs.foldl (fun b x => blockEffect (c x) b) s.block, response := r } := by
  induction xs generalizing s with
  | nil => exact ⟨s.response, rfl⟩
  | cons x xs ih =>
    obtain ⟨w, hw, hd⟩ := hc x
    obtain ⟨r, hr⟩ := ih { s with block := blockEffect (c x) s.block, response := .done }
    refine ⟨r, ?_⟩
    rw [List.map_cons, runEvents_cons, issue, hw, eventOfRaw, hostEvent_command hd]
    exact hr

/-! ## The host's reads after a check (R171, R172, R230) -/

/-- R36: the host reads the outcome of the block from STATUS. -/
theorem errOfStatus_statusWord (b : Block) : errOfStatus (statusWord b) = b.err := by
  unfold errOfStatus
  rw [statusWord_err]
  cases b.err <;> rfl

/-- A read of a mapped register by one step gives its word and changes the response alone (R55). -/
theorem runEvents_rd {off : Nat} {r : BlockReg} (h : off < 0x100) (h4 : off % 4 = 0) (hr : regAt off = some r)
    (s : State) : runEvents [rd off] s = .next { s with response := .data (readReg r s.block) } := by
  have hread : hostRead Config.busBytes off s = { s with response := .data (readReg r s.block) } := by
    rw [hostRead, if_pos (by simpa [Config.windowSize] using h), if_pos (by simp [accessLegal, h4]), hr]
  rw [runEvents_cons, rd, hostEvent, hread] <;> rfl

/-- R230: the words a read exchange's result is made of, and the state after them. -/
theorem readWords_read (a : Half) (s : State) :
    readWords (resultOffsets (.read a)) s =
      some ([s.block.rdval, s.block.rdbc.setWidth 32], { s with response := .data (s.block.rdbc.setWidth 32) }) := by
  have h1 := runEvents_rd (off := 0x18) (r := .rdval) (by decide) (by decide) rfl s
  have h2 := runEvents_rd (off := 0x1C) (r := .rdbc) (by decide) (by decide) rfl
    { s with response := .data (readReg .rdval s.block) }
  simp only [resultOffsets, readWords, h1, h2, Option.map_some]
  rfl

/-- R43, R230: the result has RDVAL and RDBC as they are in the block. -/
theorem exchangeResult_read (b : Block) :
    exchangeResult [b.rdval, b.rdbc.setWidth 32] = [{ rdval := b.rdval, rdbc := b.rdbc }] := by
  rw [exchangeResult, extract_setWidth_byte]

/-! ## Received and hand-built frames -/

/-- What pushes after RX_CLEAR leave in the receive buffer, by induction on what was pushed before. -/
theorem rxPushAll_eq (xs done : List Byte) (b : Block) (hb : b.rxbuf = bufferOf 16 (done.take 16))
    (hc : b.rxcnt = min done.length 16) (ho : b.rxovf = decide (16 < done.length)) (he : b.err = .ok) :
    b.rxPushAll xs =
      { b with rxbuf := bufferOf 16 ((done ++ xs).take 16), rxcnt := min (done ++ xs).length 16,
               rxovf := decide (16 < (done ++ xs).length) } := by
  induction xs generalizing done b with
  | nil =>
    rw [List.append_nil, ← hb, ← hc, ← ho]
    rfl
  | cons x xs ih =>
    have hstep : b.rxPush x =
        { b with rxbuf := bufferOf 16 ((done ++ [x]).take 16), rxcnt := min (done ++ [x]).length 16,
                 rxovf := decide (16 < (done ++ [x]).length) } := by
      by_cases h : done.length < 16
      · have htake : done.take 16 = done := List.take_of_length_le (by omega)
        have hc' : b.rxcnt = done.length := by omega
        rw [Block.rxPush_of_room x (by omega), List.take_of_length_le (by simp; omega), ← bufferOf_push, ← htake, ← hb,
          htake, ← hc']
        have h1 : min (done ++ [x]).length 16 = b.rxcnt + 1 := by simp; omega
        have h2 : decide (16 < (done ++ [x]).length) = b.rxovf := by
          rw [ho, decide_eq_decide, List.length_append, List.length_singleton]
          omega
        rw [h1, h2, ← he]
        rfl
      · have h1 : min (done ++ [x]).length 16 = b.rxcnt := by simp; omega
        have h2 : decide (16 < (done ++ [x]).length) = true := by simp; omega
        rw [Block.rxPush_of_full x (by omega), List.take_append_of_le_length (by omega), ← hb, h1, h2, ← he]
    rw [Block.rxPushAll, List.foldl_cons, hstep]
    refine (ih (done ++ [x])
      { b with rxbuf := bufferOf 16 ((done ++ [x]).take 16), rxcnt := min (done ++ [x]).length 16,
               rxovf := decide (16 < (done ++ [x]).length) } rfl rfl rfl he).trans ?_
    rw [List.append_assoc, List.singleton_append]

/-- R77, R143, R144: RXFRAME leaves the first sixteen bytes, their count and whether one was lost. -/
theorem Block.rxFrame_eq (xs : List Byte) (b : Block) :
    b.rxFrame xs =
      { b with rxbuf := bufferOf 16 (xs.take 16), rxcnt := min xs.length 16, rxovf := decide (16 < xs.length),
               err := .ok } := by
  rw [Block.rxFrame, rxPushAll_eq xs [] _ rfl rfl rfl rfl]
  rfl

/-- A received frame of nine bytes passes the length test and is what the checks read. -/
theorem rxFrame_nine {f : List Byte} (h : f.length = 9) (b : Block) :
    (b.rxFrame f).rxovf = false ∧ (b.rxFrame f).rxcnt = 9 ∧ (b.rxFrame f).rxbuf.toList.take 9 = f := by
  rw [Block.rxFrame_eq]
  refine ⟨by simp [h], by simp [h], ?_⟩
  show (bufferOf 16 (f.take 16)).toList.take 9 = f
  rw [List.take_of_length_le (l := f) (by omega), bufferOf_toList (by omega), List.take_append_of_le_length (by omega),
    List.take_of_length_le (by omega)]

/-- A received frame of another length fails the length test. -/
theorem rxFrame_not_nine {f : List Byte} (h : f.length ≠ 9) (b : Block) :
    ¬ ((b.rxFrame f).rxovf = false ∧ (b.rxFrame f).rxcnt = 9) := by
  rw [Block.rxFrame_eq]
  simp only [decide_eq_false_iff_not]
  omega

/-- What pushes after TX_CLEAR leave in the request buffer. -/
theorem txPushAll_eq (xs done : List Byte) (b : Block) (hl : (done ++ xs).length ≤ 16)
    (hb : b.txbuf = bufferOf 16 done) (hc : b.txlen = done.length) (he : b.err = .ok) :
    b.txPushAll xs = { b with txbuf := bufferOf 16 (done ++ xs), txlen := (done ++ xs).length } := by
  induction xs generalizing done b with
  | nil =>
    rw [List.append_nil, ← hb, ← hc]
    rfl
  | cons x xs ih =>
    have hlt : done.length < 16 := by
      simp only [List.length_append, List.length_cons] at hl
      omega
    have hstep : b.txPush x = { b with txbuf := bufferOf 16 (done ++ [x]), txlen := (done ++ [x]).length } := by
      rw [Block.txPush_of_room x (by omega), ← bufferOf_push, ← hb, ← hc, List.length_append, List.length_singleton, ← hc,
        ← he]
      rfl
    rw [Block.txPushAll, List.foldl_cons, hstep]
    refine (ih (done ++ [x]) { b with txbuf := bufferOf 16 (done ++ [x]), txlen := (done ++ [x]).length }
      (by simpa using hl) rfl rfl he).trans ?_
    rw [List.append_assoc, List.singleton_append]

/-- R77, R125, R126: TXFRAME of at most sixteen bytes leaves them in the request buffer. -/
theorem Block.txFrame_eq (xs : List Byte) (b : Block) (h : xs.length ≤ 16) :
    b.txFrame xs = { b with txbuf := bufferOf 16 xs, txlen := xs.length, err := .ok } := by
  rw [Block.txFrame, txPushAll_eq xs [] _ h rfl rfl rfl]
  rfl

/-- RXFRAME as host events runs the block's `rxFrame`. -/
theorem runEvents_rxFrame (xs : List Byte) (s : State) :
    ∃ r, runEvents (rxFrameEvents xs) s = .next { s with block := s.block.rxFrame xs, response := r } := by
  obtain ⟨r, hr⟩ := runEvents_commands xs Instr.rxPush (fun x => ⟨_, rfl, decodeCommand_commandWord _ _⟩)
    { s with block := s.block.rxClear, response := .done }
  refine ⟨r, ?_⟩
  rw [rxFrameEvents, runEvents_cons]
  exact hr

/-- TXFRAME as host events runs the block's `txFrame`. -/
theorem runEvents_txFrame (xs : List Byte) (s : State) :
    ∃ r, runEvents (txFrameEvents xs) s = .next { s with block := s.block.txFrame xs, response := r } := by
  obtain ⟨r, hr⟩ := runEvents_commands xs Instr.txPush (fun x => ⟨_, rfl, decodeCommand_commandWord _ _⟩)
    { s with block := s.block.txClear, response := .done }
  refine ⟨r, ?_⟩
  rw [txFrameEvents, runEvents_cons]
  exact hr

/-! ## The invariant's clauses -/

/-- Zero past the frame, in a buffer filled from one (R46). -/
theorem bufferOf_zero_fill (n : Nat) (f : List Byte) (i : Fin n) (h : f.length ≤ i.val) : (bufferOf n f)[i] = 0 := by
  rw [Fin.getElem_fin, bufferOf_getElem, List.getD_eq_default _ _ h]

/-- A byte put at the count leaves zeros at and past the next index. -/
theorem set_zero_fill {n : Nat} {buf : Vector Byte n} {k : Nat} (x : Byte)
    (h : ∀ i : Fin n, k ≤ i.val → buf[i] = 0) (i : Fin n) (hi : k + 1 ≤ i.val) :
    (buf.setIfInBounds k x)[i] = 0 := by
  rw [Fin.getElem_fin, Vector.getElem_setIfInBounds, if_neg (by omega)]
  exact h i (by omega)

end Sys2Proof.Machine
end

