-- ==== Sys2Proof/Laws/PerInstr.lean ====
section
/-! SUPPORT. What holds of every instruction as syntax, one lemma for each constructor. -/

namespace Sys2Proof.Laws

open Sys2Proof.Machine

/-- R71 to R74, R80: a command is encoded in a word with RES = 0, whose IMM8 is 0 unless its OP takes an operand; a frame
has the length of one of the four kinds. -/
def EncodingShape.Statement (i : Instr) : Prop :=
  match encode i with
  | .command w => resField w = 0 ∧ (immField w = 0 ∨ opField w ∈ [0x02#8, 0x13#8, 0x21#8])
  | .frame bytes => bytes.length ∈ [8, 9, 13]

/-- A word of a command without operand has the shape. -/
theorem commandWord_zero_shape (op : Byte) :
    resField (commandWord 0 op) = 0 ∧ (immField (commandWord 0 op) = 0 ∨ opField (commandWord 0 op) ∈ [0x02#8, 0x13#8, 0x21#8]) :=
  ⟨resField_commandWord 0 op, .inl (immField_commandWord 0 op)⟩

/-- A word of a command with an operand has the shape. -/
theorem commandWord_operand_shape (b op : Byte) (h : op ∈ [0x02#8, 0x13#8, 0x21#8]) :
    resField (commandWord b op) = 0 ∧ (immField (commandWord b op) = 0 ∨ opField (commandWord b op) ∈ [0x02#8, 0x13#8, 0x21#8]) :=
  ⟨resField_commandWord b op, .inr (by rw [opField_commandWord]; exact h)⟩

theorem EncodingShape.nop : Statement .nop := commandWord_zero_shape _
theorem EncodingShape.crcInit : Statement .crcInit := commandWord_zero_shape _
theorem EncodingShape.crcByte (b : Byte) : Statement (.crcByte b) := commandWord_operand_shape b _ (by decide)
theorem EncodingShape.buildWrite : Statement .buildWrite := commandWord_zero_shape _
theorem EncodingShape.buildRead : Statement .buildRead := commandWord_zero_shape _
theorem EncodingShape.txClear : Statement .txClear := commandWord_zero_shape _
theorem EncodingShape.txPush (b : Byte) : Statement (.txPush b) := commandWord_operand_shape b _ (by decide)
theorem EncodingShape.txAppendCrc : Statement .txAppendCrc := commandWord_zero_shape _
theorem EncodingShape.rxClear : Statement .rxClear := commandWord_zero_shape _
theorem EncodingShape.rxPush (b : Byte) : Statement (.rxPush b) := commandWord_operand_shape b _ (by decide)
theorem EncodingShape.rxVerifyCrc : Statement .rxVerifyCrc := commandWord_zero_shape _
theorem EncodingShape.checkWrite : Statement .checkWrite := commandWord_zero_shape _
theorem EncodingShape.parseRead : Statement .parseRead := commandWord_zero_shape _
theorem EncodingShape.frameWriteRequest (n : Byte) (a : Half) (v : Word) : Statement (.frameWriteRequest n a v) := by
  simp [Statement, encode]
theorem EncodingShape.frameWriteResponse (n : Byte) (a crc : Half) : Statement (.frameWriteResponse n a crc) := by
  simp [Statement, encode]
theorem EncodingShape.frameReadRequest (n : Byte) (a : Half) : Statement (.frameReadRequest n a) := by
  simp [Statement, encode]
theorem EncodingShape.frameReadResponse (n func count : Byte) (v : Word) (crc : Half) :
    Statement (.frameReadResponse n func count v crc) := by
  simp [Statement, encode]

end Sys2Proof.Laws
end

