-- ==== Sys2Proof/Tests/Slice0.lean ====
section
/-! SUPPORT. Tests of one step or one decoding each, with expected values from spec/95_test_vectors.md (the vector is named
in each docstring), and a witness for the hypotheses of every statement that has some. -/

namespace Sys2Proof.Tests

-- The tests are checked one after another: many at once would need a thread each.
set_option Elab.async false

open Sys2Proof.Machine

/-! ## Small states -/

/-- The block after a frame was received: its bytes in RXBUF, RXCNT its length. -/
def received (bs : List Byte) (b : Block) : Block := { b with rxbuf := bufferOf 16 bs, rxcnt := bs.length }

/-- The block with a request buffer of the given bytes. -/
def prepared (bs : List Byte) (b : Block) : Block := { b with txbuf := bufferOf 16 bs, txlen := bs.length }

/-- The operands of T7: node 5, register 0x010E, value 1. -/
def operands : Block := { Block.reset with node := 0x05, regaddr := 0x010E, wvalue := 1 }

/-- The block of V-CHK-2: the expected response of node 5 and register 0x010E, valid. -/
def expecting : Block :=
  { Block.reset with expbuf := bufferOf 9 [0x05, 0x06, 0x01, 0x0E, 0x00, 0x01, 0x04, 0x1D, 0x71], expvalid := true }

/-- The echo of T7. -/
def echo : List Byte := [0x05, 0x06, 0x01, 0x0E, 0x00, 0x01, 0x04, 0x1D, 0x71]

/-- The read response of T9, 1500 from node 5. -/
def reading : List Byte := [0x05, 0x03, 0x04, 0x00, 0x00, 0x05, 0xDC, 0x3A, 0xBD]

/-- A state with a block and what the host does next. -/
def at' (b : Block) (pending : List HostEvent := []) : State := { block := b, pending := pending, response := .none }

/-- What a step or an instruction leaves in the block. -/
def blockOf : Host.Outcome State Fault Refusal → Option Block
  | .next t => some t.block
  | .fault _ => none
  | .refused _ => none

/-- What a step gives the host. -/
def responseOf : Host.Outcome State Fault Refusal → Option HostResponse
  | .next t => some t.response
  | .fault _ => none
  | .refused _ => none

/-- What an instruction leaves in the block. -/
def after (i : Instr) (b : Block) : Option Block := blockOf (exec i (at' b))

/-! ## WellFormed -/

/-- The bytes `05 06 01 0E 00 01 04 1D 71` are a write response, so they are no read response (log entry 6). -/
theorem test_wellFormed_refuses_write_response_shape :
    (Instr.frameReadResponse 0x05 0x06 0x01 0x0E000104 0x1D71).wellFormed = false := by decide

/-- A read response of the instrument is well formed (V-CHK-1). -/
theorem test_wellFormed_accepts_read_response :
    (Instr.frameReadResponse 0x05 0x03 0x04 0x000005DC 0x3ABD).wellFormed = true := by decide

/-! ## Decoding: the words written out from R71, R73 and R81 to R84, RES ++ IMM8 ++ OP -/

theorem test_decode_nop : decodeCommand (0x0000#16 ++ 0b00000000#8 ++ 0b00000000#8) = .ok .nop := by decide
theorem test_decode_crcInit : decodeCommand (0x0000#16 ++ 0b00000000#8 ++ 0b00000001#8) = .ok .crcInit := by decide
theorem test_decode_crcByte : decodeCommand (0x0000#16 ++ 0b00110001#8 ++ 0b00000010#8) = .ok (.crcByte 0x31) := by decide
theorem test_decode_buildWrite : decodeCommand (0x0000#16 ++ 0b00000000#8 ++ 0b00010000#8) = .ok .buildWrite := by decide
theorem test_decode_buildRead : decodeCommand (0x0000#16 ++ 0b00000000#8 ++ 0b00010001#8) = .ok .buildRead := by decide
theorem test_decode_txClear : decodeCommand (0x0000#16 ++ 0b00000000#8 ++ 0b00010010#8) = .ok .txClear := by decide
theorem test_decode_txPush : decodeCommand (0x0000#16 ++ 0b00000101#8 ++ 0b00010011#8) = .ok (.txPush 0x05) := by decide
theorem test_decode_txAppendCrc : decodeCommand (0x0000#16 ++ 0b00000000#8 ++ 0b00010100#8) = .ok .txAppendCrc := by decide
theorem test_decode_rxClear : decodeCommand (0x0000#16 ++ 0b00000000#8 ++ 0b00100000#8) = .ok .rxClear := by decide
theorem test_decode_rxPush : decodeCommand (0x0000#16 ++ 0b10101010#8 ++ 0b00100001#8) = .ok (.rxPush 0xAA) := by decide
theorem test_decode_rxVerifyCrc : decodeCommand (0x0000#16 ++ 0b00000000#8 ++ 0b00100010#8) = .ok .rxVerifyCrc := by decide
theorem test_decode_checkWrite : decodeCommand (0x0000#16 ++ 0b00000000#8 ++ 0b00100011#8) = .ok .checkWrite := by decide
theorem test_decode_parseRead : decodeCommand (0x0000#16 ++ 0b00000000#8 ++ 0b00100100#8) = .ok .parseRead := by decide

/-- T7, byte by byte. -/
theorem test_decode_frameWriteRequest :
    decode (.frame [0b00000101#8, 0b00000110#8, 0b00000001#8, 0b00001110#8, 0b00000000#8, 0b00000001#8, 0b00000100#8,
      0b00000000#8, 0b00000000#8, 0b00000000#8, 0b00000001#8, 0b11111010#8, 0b01001010#8]) =
      .ok (.frameWriteRequest 0x05 0x010E 0x00000001) := by decide +kernel

/-- T7, byte by byte. -/
theorem test_decode_frameWriteResponse :
    decode (.frame [0b00000101#8, 0b00000110#8, 0b00000001#8, 0b00001110#8, 0b00000000#8, 0b00000001#8, 0b00000100#8,
      0b00011101#8, 0b01110001#8]) = .ok (.frameWriteResponse 0x05 0x010E 0x1D71) := by decide +kernel

/-- V-BLD-2 row 1, byte by byte. -/
theorem test_decode_frameReadRequest :
    decode (.frame [0b00000101#8, 0b00000011#8, 0b00000001#8, 0b00001110#8, 0b00000000#8, 0b00000100#8, 0b10110010#8,
      0b00100101#8]) = .ok (.frameReadRequest 0x05 0x010E) := by decide +kernel

/-- V-CHK-1 row 1, byte by byte. -/
theorem test_decode_frameReadResponse :
    decode (.frame [0b00000101#8, 0b00000011#8, 0b00000100#8, 0b00000000#8, 0b00000000#8, 0b00000101#8, 0b11011100#8,
      0b00111010#8, 0b10111101#8]) = .ok (.frameReadResponse 0x05 0x03 0x04 0x000005DC 0x3ABD) := by decide +kernel

/-- V-CTL: a reserved OP, a set RES bit, and IMM8 in a command without operand are rejected by name. -/
theorem test_decode_rejects_by_name :
    decodeCommand 0x00000015 = .error (.reservedOp 0x15) ∧ decodeCommand 0x0001FF13 = .error (.reservedBits 0x0001) ∧
    decodeCommand 0x00000110 = .error (.unexpectedImm 0x01) := by decide

/-- V-CRC-5: a request with its CRC low byte first, and a string of another length, are no frame. -/
theorem test_decode_rejects_frames_by_name :
    decode (.frame [0x05, 0x03, 0x01, 0x0E, 0x00, 0x04, 0x25, 0xB2]) = .error (.requestCrc 0x25B2) ∧
    decode (.frame [0x01, 0x80, 0x7E]) = .error (.unknownFrame 3) := by decide +kernel

/-- The opcode table's numbering: a command word as one number, a frame with byte 0 in bits 7 to 0 (log entry 7). -/
theorem test_decodeTableWord :
    decodeTableWord 32 0x00003102 = some (.crcByte 0x31) ∧
    decodeTableWord 64 0x25B204000E010305 = some (.frameReadRequest 0x05 0x010E) ∧
    decodeTableWord 72 0x711D0401000E010605 = some (.frameWriteResponse 0x05 0x010E 0x1D71) ∧
    decodeTableWord 104 0x4AFA010000000401000E010605 = some (.frameWriteRequest 0x05 0x010E 1) := by decide +kernel

/-- A command placed for the host's question runs as the first instruction after reset (V-CRC-8). -/
theorem test_withFetchWord :
    (blockOf (step (State.reset.withFetchWord 32 0x00003102))).map Block.crc = some 0x947E := by decide

/-! ## The instructions, two theorems each at most -/

/-- V-CTL row 1. -/
theorem test_nop :
    after .nop { Block.reset with err := .invalidCrc, crc := 0x1234 } = some { Block.reset with crc := 0x1234 } := by decide

/-- V-CRC-8 row 1. -/
theorem test_crcInit : after .crcInit { Block.reset with crc := 0x1234 } = some Block.reset := by decide

/-- V-CRC-8 row 5. -/
theorem test_crcByte :
    (after (.crcByte 0x00) { Block.reset with crc := 0x4B37 }).map Block.crc = some 0xD60A := by decide

/-- V-CRC-1: a byte with every bit set. -/
theorem test_crcByte_ones : (after (.crcByte 0xFF) Block.reset).map Block.crc = some 0x00FF := by decide

/-- V-BLD-1 row 1: the request. -/
theorem test_buildWrite_request :
    (after .buildWrite operands).map (fun b => firstBytes b.txbuf 13) =
      some [0x05, 0x06, 0x01, 0x0E, 0x00, 0x01, 0x04, 0x00, 0x00, 0x00, 0x01, 0xFA, 0x4A] := by decide +kernel

/-- V-BLD-1 row 1: the expected response. -/
theorem test_buildWrite_expected :
    (after .buildWrite operands).map (fun b => (b.expbuf.toList, b.expvalid, b.txlen)) = some (echo, true, 13) := by
  decide +kernel

/-- V-BLD-2 row 2. -/
theorem test_buildRead :
    (after .buildRead { operands with regaddr := 0x1234 }).map (fun b => firstBytes b.txbuf 8) =
      some [0x05, 0x03, 0x12, 0x34, 0x00, 0x04, 0x3B, 0x01] := by decide +kernel

/-- V-BLD-2: EXPBUF keeps its bytes and loses its validity. -/
theorem test_buildRead_expected :
    (after .buildRead expecting).map (fun b => (b.expbuf.toList, b.expvalid, b.txlen)) = some (echo, false, 8) := by
  decide +kernel

/-- V-BLD-3 row 1. -/
theorem test_txClear : after .txClear (prepared [0x05, 0x06] Block.reset) = some Block.reset := by decide +kernel

/-- V-BLD-3 row 3: a zero byte counts. -/
theorem test_txPush :
    after (.txPush 0x00) (prepared [0x01] Block.reset) = some (prepared [0x01, 0x00] Block.reset) := by decide +kernel

/-- V-BLD-3 row 4. -/
theorem test_txPush_full :
    after (.txPush 0x05) { Block.reset with txlen := 16 } = some { Block.reset with txlen := 16, err := .cmdError } := by
  decide +kernel

/-- V-BLD-3 row 6. -/
theorem test_txAppendCrc :
    after .txAppendCrc (prepared [0x01] Block.reset) = some (prepared [0x01, 0x80, 0x7E] Block.reset) := by decide +kernel

/-- V-BLD-3 row 7: the last two bytes of the buffer. -/
theorem test_txAppendCrc_last :
    (after .txAppendCrc { Block.reset with txlen := 14 }).map (fun b => (b.txbuf.toList.drop 14, b.txlen)) =
      some ([0x01, 0xAB], 16) := by decide +kernel

/-- V-CHK-3 row 1. -/
theorem test_rxClear :
    after .rxClear { received echo Block.reset with rxovf := true } = some Block.reset := by decide +kernel

/-- V-CHK-3 row 2. -/
theorem test_rxPush :
    after (.rxPush 0x05) Block.reset = some (received [0x05] Block.reset) := by decide +kernel

/-- V-CHK-3 row 3. -/
theorem test_rxPush_full :
    after (.rxPush 0xAA) { Block.reset with rxcnt := 16 } = some { Block.reset with rxcnt := 16, rxovf := true } := by
  decide +kernel

/-- V-CHK-2 row 13. -/
theorem test_rxVerifyCrc :
    (after .rxVerifyCrc (received [0x01, 0x80, 0x7E] Block.reset)).map (fun b => (b.crcok, b.err)) = some (true, .ok) := by
  decide +kernel

/-- V-CHK-2 row 14: the CRC low byte first. -/
theorem test_rxVerifyCrc_swapped :
    (after .rxVerifyCrc (received [0x01, 0x7E, 0x80] Block.reset)).map (fun b => (b.crcok, b.err)) =
      some (false, .invalidCrc) := by decide +kernel

/-- V-CHK-2 row 1. -/
theorem test_checkWrite :
    after .checkWrite (received echo expecting) = some { received echo expecting with crcok := true } := by decide +kernel

/-- V-CHK-2 row 5: a good CRC, the wrong node. -/
theorem test_checkWrite_other_node :
    (after .checkWrite (received [0x01, 0x06, 0x01, 0x0E, 0x00, 0x01, 0x04, 0xDD, 0x34] expecting)).map
      (fun b => (b.crcok, b.err)) = some (true, .invalidResponse) := by decide +kernel

/-- V-CHK-1 row 6. -/
theorem test_parseRead :
    (after .parseRead (received [0x05, 0x03, 0x04, 0x12, 0x34, 0x56, 0x78, 0xC7, 0xC4] Block.reset)).map
      (fun b => (b.rdval, b.rdbc, b.err)) = some (0x12345678, 0x04, .ok) := by decide +kernel

/-- V-CHK-2 row 10: RDVAL and RDBC keep their values. -/
theorem test_parseRead_swapped :
    (after .parseRead { received [0x05, 0x03, 0x04, 0x00, 0x00, 0x05, 0xDC, 0xBD, 0x3A] Block.reset with
      rdval := 7, rdbc := 9 }).map (fun b => (b.rdval, b.rdbc, b.err)) = some (7, 9, .invalidCrc) := by decide +kernel

/-- V-BLD-1 row 7. -/
theorem test_frameWriteRequest :
    (after (.frameWriteRequest 0x11 0x1234 0x89ABCDEF) Block.reset).map (fun b => (firstBytes b.txbuf 13, b.regaddr)) =
      some ([0x11, 0x06, 0x12, 0x34, 0x00, 0x01, 0x04, 0x89, 0xAB, 0xCD, 0xEF, 0x31, 0xDE], 0x1234) := by decide +kernel

/-- V-CHK-2 row 1. -/
theorem test_frameWriteResponse :
    (after (.frameWriteResponse 0x05 0x010E 0x1D71) expecting).map (fun b => (b.err, b.crcok, b.rxcnt)) =
      some (.ok, true, 9) := by decide +kernel

/-- V-CHK-2 row 6: the CRC low byte first. -/
theorem test_frameWriteResponse_swapped :
    (after (.frameWriteResponse 0x05 0x010E 0x711D) expecting).map (fun b => (b.err, b.crcok)) =
      some (.invalidCrc, false) := by decide +kernel

/-- V-BLD-2 row 4. -/
theorem test_frameReadRequest :
    (after (.frameReadRequest 0xFF 0xFFFF) Block.reset).map (fun b => (firstBytes b.txbuf 8, b.node)) =
      some ([0xFF, 0x03, 0xFF, 0xFF, 0x00, 0x04, 0xF3, 0x51], 0xFF) := by decide +kernel

/-- V-CHK-2 row 12: another node and function code, a good CRC. -/
theorem test_frameReadResponse :
    (after (.frameReadResponse 0x07 0x83 0x02 0x0000002A 0x2C8A) Block.reset).map (fun b => (b.rdval, b.rdbc, b.err)) =
      some (0x0000002A, 0x02, .ok) := by decide +kernel

/-! ## The bus (V-BUS) and the host (V-HOST) -/

/-- WR 0x0C, 0xABCD010E. -/
theorem test_bus_write_regaddr :
    (blockOf (step (at' Block.reset [.write 4 0x0C 0xABCD010E]))).map Block.regaddr = some 0x010E := by decide

/-- RD 0xE0 after BUILD_WRITE for node 5, address 0x010E, and RD 0x14 after reset. -/
theorem test_bus_reads :
    responseOf (step (at' expecting [.read 4 0xE0])) = some (.data 0x00000071) ∧
    responseOf (step (at' Block.reset [.read 4 0x14])) = some (.data 0x0000FFFF) := by decide

/-- WR 0x40, RD 0x3C, RD 0xE4, RD 0x06 and the 8-bit read at 0x04: BusError. -/
theorem test_bus_errors :
    responseOf (step (at' Block.reset [.write 4 0x40 0])) = some (.fault (.busError 0x40)) ∧
    responseOf (step (at' Block.reset [.read 4 0x3C])) = some (.fault (.busError 0x3C)) ∧
    responseOf (step (at' Block.reset [.read 4 0xE4])) = some (.fault (.busError 0xE4)) ∧
    responseOf (step (at' Block.reset [.read 4 0x06])) = some (.fault (.busError 0x06)) ∧
    responseOf (step (at' Block.reset [.read 1 0x04])) = some (.fault (.busError 0x04)) := by decide

/-- P4: STATUS after step (a), 0x00090D0A. -/
theorem test_status_word :
    responseOf (step (at' { expecting with txlen := 13, rxcnt := 9, err := .invalidCrc } [.read 4 0x04])) =
      some (.data 0x00090D0A) := by decide

/-- V-HOST rows 4 to 9, with the parameters the spec leaves open at any value. -/
theorem test_host_scaling (p : HostParams) (h : p.scaleConvert = Decimal.exactScale) :
    wireInteger p ⟨15, 4⟩ 1000 = some 1 ∧ wireInteger p ⟨1025, 2⟩ 10 = some 102 ∧
    wireInteger p ⟨4294967295, 3⟩ 1000 = some 0xFFFFFFFF ∧ wireInteger p ⟨4294967296, 3⟩ 1000 = none ∧
    wireInteger p ⟨-1, 0⟩ 1000 = none := by
  simp only [wireInteger, h]
  decide

/-- P2, its last two reads: the result of a read exchange is RDVAL and RDBC (R230). -/
theorem test_host_read_result :
    (readWords (resultOffsets (.read 0x1234)) (at' { Block.reset with rdval := 0x000005DC, rdbc := 0x04 })).map
      (fun r => (r.1, exchangeResult r.1)) =
      some ([0x000005DC, 0x00000004], [{ rdval := 0x000005DC, rdbc := 0x04 }]) := by decide

/-- T10. -/
theorem test_host_status_line :
    statusLine .constantResistance 3300 1500 = "MODE: CR - REAL_VOLTAGE: 3.300V - REAL_CURRENT: 1.500A" := by decide +kernel

/-- V-HOST, the mode rows. -/
theorem test_host_mode :
    LoadMode.ofValue 0x00000002 = some .constantResistance ∧ LoadMode.ofValue 0x01000003 = some .constantPower ∧
    LoadMode.ofValue 0x00000004 = none := by decide

/-! ## Witnesses: states and operands that meet a statement's hypotheses together, one for each clause -/

/-- Values of HostParams, for the witnesses alone; the register addresses are the ones program P5 uses for illustration. -/
def someParams : HostParams :=
  { valueSigned := false, regMode := 0x0000, regSetV := 0x0001, regSetC := 0, regSetR := 0, regSetP := 0, regMeasV := 0,
    regMeasC := 0 }

theorem witness_DecodeOfEncode :
    (Instr.frameReadResponse 0xFF 0x06 0xFF 0xFF000104 0xFFFF).wellFormed = false ∧
    (Instr.frameReadResponse 0xFF 0x06 0xFF 0xFF000105 0xFFFF).wellFormed = true ∧
    (Instr.txPush 0xFF).wellFormed = true := by decide

theorem witness_EncodeOfDecode :
    decode (.command 0x0000FF21) = .ok (.rxPush 0xFF) ∧
    decode (.frame [0x07, 0x83, 0x02, 0x00, 0x00, 0x00, 0x2A, 0x2C, 0x8A]) =
      .ok (.frameReadResponse 0x07 0x83 0x02 0x0000002A 0x2C8A) := by decide +kernel

theorem witness_StepRunsTheCommandWord :
    (at' Block.reset [.write 4 0x00 0x00000010, .reset]).pending = .write 4 0x00 0x00000010 :: [.reset] ∧
    decodeCommand 0x00000010 = .ok .buildWrite ∧ decodeCommand 0x0000000F = .error (.reservedOp 0x0F) := by decide

theorem witness_StepRunsTheDecodedInstruction :
    decode (.command 0x00003102) = .ok (.crcByte 0x31) ∧
    (at' Block.reset [.write 4 0x00 0x00003102]).pending = eventOfRaw (.command 0x00003102) :: [] ∧
    decode (.frame echo) = .ok (.frameWriteResponse 0x05 0x010E 0x1D71) ∧
    (at' Block.reset [.frame echo]).pending = eventOfRaw (.frame echo) :: [] ∧
    decodeTableWord 64 0x25B204000E010305 = some (.frameReadRequest 0x05 0x010E) := by decide +kernel

theorem witness_IllegalWordChangesOnlyErr :
    decodeCommand 0x0001FF13 = .error (.reservedBits 0x0001) ∧
    (at' Block.reset [.write 4 0x00 0x0001FF13]).pending = .write 4 0x00 0x0001FF13 :: [] := by decide

theorem witness_ResetEventResetsTheBlock : (at' expecting [.reset, .wait 1]).pending = .reset :: [.wait 1] := by decide

theorem witness_VerifiedListsAreTheAppendedOnes :
    verifyCrc [0xFF, 0xFF] = true ∧ [0xFF, 0xFF] = [] ++ [(crc16 []).extractLsb' 8 8, (crc16 []).extractLsb' 0 8] ∧
    ([0x01] : List Byte).length < 2 := by decide

/-- The last covered byte, index 6 of 9. -/
theorem witness_AlteredByteFailsTheCrc : verifyCrc echo = true ∧ 6 + 2 < echo.length ∧ (0x05 : Byte) ≠ echo.getD 6 0 := by
  decide +kernel

/-- TXLEN 15 has room, TXLEN 16 has not. -/
theorem witness_TxPushResult :
    (at' { Block.reset with txlen := 15 }).block.txlen < 16 ∧ ¬ (at' { Block.reset with txlen := 16 }).block.txlen < 16 := by
  decide

/-- TXLEN 14 has room, TXLEN 15 has not. -/
theorem witness_TxAppendCrcResult :
    (at' { Block.reset with txlen := 14 }).block.txlen ≤ 14 ∧ ¬ (at' { Block.reset with txlen := 15 }).block.txlen ≤ 14 := by
  decide

/-- RXCNT 15 has room, RXCNT 16 has not. -/
theorem witness_RxPushResult :
    (at' { Block.reset with rxcnt := 15 }).block.rxcnt < 16 ∧ ¬ (at' { Block.reset with rxcnt := 16 }).block.rxcnt < 16 := by
  decide

theorem witness_RxVerifyCrcResult_short :
    (received [0x01] Block.reset).rxovf = false ∧ (received [0x01] Block.reset).rxcnt < 2 ∧
    ({ received echo Block.reset with rxovf := true } : Block).rxovf = true := by decide

theorem witness_RxVerifyCrcResult_good :
    (received [0xFF, 0xFF] Block.reset).rxovf = false ∧ 2 ≤ (received [0xFF, 0xFF] Block.reset).rxcnt ∧
    verifyCrc ((received [0xFF, 0xFF] Block.reset).rxbuf.toList.take (received [0xFF, 0xFF] Block.reset).rxcnt) = true := by
  decide +kernel

theorem witness_RxVerifyCrcResult_bad :
    (received [0x01, 0x7E, 0x80] Block.reset).rxovf = false ∧ 2 ≤ (received [0x01, 0x7E, 0x80] Block.reset).rxcnt ∧
    verifyCrc ((received [0x01, 0x7E, 0x80] Block.reset).rxbuf.toList.take
      (received [0x01, 0x7E, 0x80] Block.reset).rxcnt) = false := by decide +kernel

/-- No valid expected response; and with one, 8 and 10 bytes, and 9 with an overflow. -/
theorem witness_CheckWriteResult_early :
    Block.reset.expvalid = false ∧ expecting.expvalid = true ∧
    ¬ ((received (echo.take 8) expecting).rxovf = false ∧ (received (echo.take 8) expecting).rxcnt = 9) ∧
    ¬ ((received (echo ++ [0]) expecting).rxovf = false ∧ (received (echo ++ [0]) expecting).rxcnt = 9) ∧
    ¬ (({ received echo expecting with rxovf := true } : Block).rxovf = false ∧
      ({ received echo expecting with rxovf := true } : Block).rxcnt = 9) := by decide

theorem witness_CheckWriteResult_crc :
    (received (echo.set 3 0x0F) expecting).expvalid = true ∧ (received (echo.set 3 0x0F) expecting).rxovf = false ∧
    (received (echo.set 3 0x0F) expecting).rxcnt = 9 ∧
    verifyCrc ((received (echo.set 3 0x0F) expecting).rxbuf.toList.take 9) = false := by decide +kernel

theorem witness_CheckWriteResult_echo :
    (received echo expecting).expvalid = true ∧ (received echo expecting).rxovf = false ∧
    (received echo expecting).rxcnt = 9 ∧ verifyCrc ((received echo expecting).rxbuf.toList.take 9) = true ∧
    (received echo expecting).rxbuf.toList.take 9 = (received echo expecting).expbuf.toList := by decide +kernel

theorem witness_CheckWriteResult_content :
    (received reading expecting).expvalid = true ∧ (received reading expecting).rxovf = false ∧
    (received reading expecting).rxcnt = 9 ∧ verifyCrc ((received reading expecting).rxbuf.toList.take 9) = true ∧
    (received reading expecting).rxbuf.toList.take 9 ≠ (received reading expecting).expbuf.toList := by decide +kernel

theorem witness_ParseReadResult :
    ¬ (Block.reset.rxovf = false ∧ Block.reset.rxcnt = 9) ∧
    ((received (reading.set 6 0xDD) Block.reset).rxovf = false ∧ (received (reading.set 6 0xDD) Block.reset).rxcnt = 9 ∧
      verifyCrc ((received (reading.set 6 0xDD) Block.reset).rxbuf.toList.take 9) = false) ∧
    ((received reading Block.reset).rxovf = false ∧ (received reading Block.reset).rxcnt = 9 ∧
      verifyCrc ((received reading Block.reset).rxbuf.toList.take 9) = true) := by decide +kernel

theorem witness_FrameRowsEqualTheirAccesses :
    encode (.frameWriteResponse 0x05 0x010E 0x1D71) = .frame echo ∧
    encode (.frameReadResponse 0x05 0x03 0x04 0x000005DC 0x3ABD) = .frame reading := by decide +kernel

theorem witness_BuiltFramesVerify :
    (after .txAppendCrc (prepared [0x01] Block.reset)).map Block.err = some .ok := by decide +kernel

theorem witness_HandBuiltFrameIsAppended : (List.replicate 14 (0x00 : Byte)).length ≤ 14 := by decide

theorem witness_ResponseLengthIsExactlyNine :
    (echo.take 8).length ≠ 9 ∧ (echo ++ [0x00]).length ≠ 9 ∧ ([] : List Byte).length ≠ 9 ∧
    (List.replicate 17 (0x00 : Byte)).length ≠ 9 ∧ (at' expecting).block.expvalid = true := by decide

theorem witness_AlteredResponseIsInvalidCrc :
    reading.length = 9 ∧ verifyCrc reading = true ∧ 6 < 7 ∧ (0xDD : Byte) ≠ reading.getD 6 0 ∧
    (at' expecting).block.expvalid = true := by decide +kernel

/-- The reference value of RX_READ_MAX. -/
theorem witness_ReadRoundTrip : 9 ≤ someParams.rxReadMax := by decide

/-- The last mapped offset. -/
theorem witness_ReadsHaveNoSideEffects :
    (at' expecting [.read 4 0xE0]).pending = .read 4 0xE0 :: [] ∧ 0xE0 < 0x100 ∧ 0xE0 % 4 = 0 ∧
    regAt 0xE0 = some (.expbuf 8) := by decide

theorem witness_StatusWordFields :
    (at' { Block.reset with txlen := 16, rxcnt := 16 }).block.txlen ≤ 16 ∧
    (at' { Block.reset with txlen := 16, rxcnt := 16 }).block.rxcnt ≤ 16 := by decide

/-- A narrow and a misaligned access; the first and last unmapped offsets of both holes. -/
theorem witness_RefusedAccessesChangeNothing_any :
    ((at' Block.reset [.read 1 0x04]).pending = .read 1 0x04 :: [] ∧ (1 : Nat) ≠ 4) ∧
    ((at' Block.reset [.write 4 0x09 0]).pending = .write 4 0x09 0 :: [] ∧ 0x09 % 4 ≠ 0) ∧
    ((at' Block.reset [.read 4 0x20]).pending = .read 4 0x20 :: [] ∧ 0x20 ≤ 0x20 ∧ 0x20 < 0x40) ∧
    ((at' Block.reset [.read 4 0x3C]).pending = .read 4 0x3C :: [] ∧ 0x20 ≤ 0x3C ∧ 0x3C < 0x40) ∧
    ((at' Block.reset [.read 4 0xE4]).pending = .read 4 0xE4 :: [] ∧ 0xE4 ≤ 0xE4 ∧ 0xE4 < 0x100) ∧
    ((at' Block.reset [.write 4 0xFC 0]).pending = .write 4 0xFC 0 :: [] ∧ 0xE4 ≤ 0xFC ∧ 0xFC < 0x100) := by decide

/-- The first and last of the read-only offsets. -/
theorem witness_RefusedAccessesChangeNothing_writes :
    (at' Block.reset [.write 4 0x04 0]).pending = .write 4 0x04 0 :: [] ∧
    ((at' Block.reset [.write 4 0x14 0]).pending = .write 4 0x14 0 :: [] ∧ 0x14 ≤ 0x14 ∧ 0x14 < 0x20) ∧
    ((at' Block.reset [.write 4 0x1C 0]).pending = .write 4 0x1C 0 :: [] ∧ 0x14 ≤ 0x1C ∧ 0x1C < 0x20) ∧
    ((at' Block.reset [.write 4 0x40 0]).pending = .write 4 0x40 0 :: [] ∧ 0x40 ≤ 0x40 ∧ 0x40 < 0xE4) ∧
    ((at' Block.reset [.write 4 0xE0 0]).pending = .write 4 0xE0 0 :: [] ∧ 0x40 ≤ 0xE0 ∧ 0xE0 < 0xE4) := by decide

theorem witness_AccessesPastTheWindowDoNotReachTheBlock :
    0x100 ≤ 0x100 ∧ (at' Block.reset [.read 4 0x100]).pending = .read 4 0x100 :: [] ∧
    (at' Block.reset [.write 4 0x100 0]).pending = .write 4 0x100 0 :: [] := by decide

theorem witness_WindowOffsetsOfBusAddresses :
    0xFF < 0x100 ∧ windowOffset 0x1000 0x10FF = some 0xFF ∧ windowOffset 0x1000 0x1100 = none ∧
    windowOffset 0x1000 0x0FFF = none := by decide

theorem witness_UnderstoodEventsProceed :
    (HostEvent.frame reading).understood = true ∧ (at' Block.reset [.frame reading]).pending = .frame reading :: [] ∧
    (HostEvent.read 4 0x100).understood = true ∧ (HostEvent.frame [0x00]).understood = false ∧
    (at' Block.reset).pending = [] := by decide +kernel

theorem witness_SafeRunsDrainWhatIsPending :
    (at' Block.reset [.write 4 0x00 0xFFFFFFFF, .frame echo, .reset, .wait 200]).safe = true := by decide +kernel

/-- A write to NODE, and a wait. -/
theorem witness_ErrIsLeftByNonCommands :
    (∃ t, step (at' { Block.reset with err := .invalidCrc } [.write 4 0x08 5]) = .next t ∧ t.block.err = .invalidCrc) ∧
    (at' expecting [.wait 200]).pending = .wait 200 :: [] :=
  ⟨⟨_, rfl, rfl⟩, rfl⟩

theorem witness_CrcRegisterOwners :
    (∃ t, step (at' Block.reset [.write 4 0x00 0x00003102]) = .next t ∧ t.block.crc ≠ (at' Block.reset).block.crc) ∧
    Instr.nop ≠ .crcInit ∧ (∀ b, Instr.nop ≠ .crcByte b) ∧ ∃ t, exec .nop (at' Block.reset) = .next t :=
  ⟨⟨_, rfl, by decide⟩, by decide, by decide, ⟨_, rfl⟩⟩

theorem witness_OperandRegisterOwners :
    (∃ t, step (at' Block.reset [.write 4 0x08 5]) = .next t ∧ t.block.node ≠ Block.reset.node) ∧
    (∃ t, step (at' Block.reset [.write 4 0x0C 5]) = .next t ∧ t.block.regaddr ≠ Block.reset.regaddr) ∧
    (∃ t, step (at' Block.reset [.write 4 0x10 5]) = .next t ∧ t.block.wvalue ≠ Block.reset.wvalue) :=
  ⟨⟨_, rfl, by decide⟩, ⟨_, rfl, by decide⟩, ⟨_, rfl, by decide⟩⟩

theorem witness_ResultFieldOwners :
    decodeCommand 0x00000010 = .ok .buildWrite ∧
    (∃ b, after .buildWrite operands = some b ∧ b.expbuf ≠ operands.expbuf ∧ b.expvalid ≠ operands.expvalid ∧
      b.txlen ≠ operands.txlen) ∧
    (∃ b, after (.rxPush 0xAA) Block.reset = some b ∧ b.rxcnt ≠ Block.reset.rxcnt) ∧
    ∃ b, after .parseRead (received reading Block.reset) = some b ∧ b.rdval ≠ Block.reset.rdval ∧
      b.crcok ≠ Block.reset.crcok :=
  ⟨by decide, ⟨_, rfl, by decide +kernel⟩, ⟨_, rfl, by decide +kernel⟩, ⟨_, rfl, by decide +kernel⟩⟩

theorem witness_OutcomesArePrecise :
    (blockOf (runCommand 0x00000513 (at' { Block.reset with txlen := 16 }))).map Block.err = some .cmdError ∧
    (blockOf (runCommand 0x00000024 (at' Block.reset))).map Block.err = some .invalidResponse ∧
    (blockOf (runCommand 0x00000022 (at' (received [0x01, 0x7E, 0x80] Block.reset)))).map Block.err =
      some .invalidCrc := by decide +kernel

/-- A full receive buffer that lost a byte. -/
def overflowed : Block := { Block.reset with rxcnt := 16, rxovf := true }

/-- The invariant holds with a full buffer, an overflow and a running CRC. -/
theorem witness_invariant : (at' { overflowed with crc := 0x40BF }).Inv :=
  ⟨by decide, by decide, by decide, by decide, by decide, ⟨[0x00], by decide⟩, by decide⟩

theorem witness_OverflowStaysUntilCleared :
    (∃ t, step (at' overflowed [.write 4 0x00 0x00000020]) = .next t ∧ overflowed.rxovf = true ∧ t.block.rxovf = false) ∧
    (at' overflowed [.write 4 0x00 0x0000AA21]).Inv ∧
    ∃ t, step (at' overflowed [.write 4 0x00 0x0000AA21]) = .next t ∧ t.block.rxovf = true :=
  ⟨⟨_, rfl, rfl, rfl⟩, ⟨by decide, by decide, by decide, by decide, by decide, ⟨[], by decide⟩, by decide⟩, ⟨_, rfl, rfl⟩⟩

theorem witness_StepKeepsTheInvariant :
    (at' { overflowed with crc := 0x40BF } [.write 4 0x00 0x00000002]).Inv ∧
    ∃ t, step (at' { overflowed with crc := 0x40BF } [.write 4 0x00 0x00000002]) = .next t :=
  ⟨witness_invariant, ⟨_, rfl⟩⟩

theorem witness_ZeroFillInEveryReachableState :
    ∃ t, Sys2Proof.core.run 1 { State.reset with pending := [.write 4 0x00 0x00000521] } = .next t ∧ t.block.rxcnt = 1 :=
  ⟨_, rfl, rfl⟩

/-- The echo satisfies the right side of the equivalence, and T7 with one altered byte does not. -/
theorem witness_SwitchEndsWellOnTheEcho :
    echo.take someParams.rxReadMax = writeExpected 0x05 0x010E ∧
    (echo.set 3 0x0F).take someParams.rxReadMax ≠ writeExpected 0x05 0x010E := by decide +kernel

theorem witness_ScalingTruncatesExactly :
    someParams.scaleConvert = Decimal.exactScale ∧ wireInteger someParams ⟨4294967295, 3⟩ 1000 = some 0xFFFFFFFF ∧
    wireInteger someParams ⟨4294967296, 3⟩ 1000 = none ∧ wireInteger someParams ⟨-1, 3⟩ 1000 = none :=
  ⟨rfl, by decide, by decide, by decide⟩

theorem witness_ModeByteDecides :
    (0x00000003 : Word).extractLsb' 0 8 = (0x01000003 : Word).extractLsb' 0 8 ∧
    3 < ((0x00000004 : Word).extractLsb' 0 8).toNat ∧ ¬ 3 < ((0x01000003 : Word).extractLsb' 0 8).toNat := by decide

end Sys2Proof.Tests
end

/-! PROOFS. The block's state (spec/10_state.md): its invariant and the reachable states, what the host reads and writes in
the register window, and which command or access may write which field. -/

namespace Sys2Proof.Machine

open Sys2Proof

/-! ## The invariant, by the fields it speaks of -/

/-- The invariant says nothing about the operand registers, the results and the outcome. -/
theorem Block.Inv.withFreeFields {b : Block} (h : b.Inv) (node : Byte) (regaddr : Half) (wvalue rdval : Word)
    (rdbc : Byte) (err : Err) (crcok : Bool) :
    Block.Inv { b with node := node, regaddr := regaddr, wvalue := wvalue, rdval := rdval, rdbc := rdbc, err := err,
                       crcok := crcok } :=
  { h with }

theorem Block.Inv.withTx {b : Block} (h : b.Inv) {buf : Vector Byte 16} {n : Nat} (hn : n ≤ 16)
    (hz : ∀ i : Fin 16, n ≤ i.val → buf[i] = 0) : Block.Inv { b with txbuf := buf, txlen := n } :=
  { h with txlen_le := hn, tx_zero_fill := hz }

theorem Block.Inv.withRequest {b : Block} (h : b.Inv) {req : List Byte} {n : Nat} (hl : req.length = n) (hn : n ≤ 16) :
    Block.Inv { b with txbuf := bufferOf 16 req, txlen := n } :=
  h.withTx hn fun i hi => bufferOf_zero_fill 16 req i (hl ▸ hi)

theorem Block.Inv.withRx {b : Block} (h : b.Inv) {buf : Vector Byte 16} {n : Nat} {ovf : Bool} (hn : n ≤ 16)
    (hz : ∀ i : Fin 16, n ≤ i.val → buf[i] = 0) (ho : ovf = true → n = 16) :
    Block.Inv { b with rxbuf := buf, rxcnt := n, rxovf := ovf } :=
  { h with rxcnt_le := hn, rx_zero_fill := hz, overflow_full := ho }

theorem Block.Inv.withCrc {b : Block} (h : b.Inv) (xs : List Byte) : Block.Inv { b with crc := crc16 xs } :=
  { h with crc_reached := ⟨xs, rfl⟩ }

theorem Block.Inv.withExpected {b : Block} (h : b.Inv) (n : Byte) (a : Half) (valid : Bool) :
    Block.Inv { b with expbuf := bufferOf 9 (writeExpected n a), expvalid := valid } :=
  { h with expected_built := fun _ => ⟨n, a, rfl⟩ }

theorem Block.Inv.withoutExpected {b : Block} (h : b.Inv) : Block.Inv { b with expvalid := false } :=
  { h with expected_built := fun hv => absurd hv Bool.false_ne_true }

/-! ## The invariant is kept by every operation on the block -/

theorem Block.Inv.setErr {b : Block} (h : b.Inv) (e : Err) : (b.setErr e).Inv := h.withFreeFields ..

theorem Block.Inv.writeNode {b : Block} (h : b.Inv) (v : Word) : (b.writeNode v).Inv := h.withFreeFields ..

theorem Block.Inv.writeRegaddr {b : Block} (h : b.Inv) (v : Word) : (b.writeRegaddr v).Inv := h.withFreeFields ..

theorem Block.Inv.writeWvalue {b : Block} (h : b.Inv) (v : Word) : (b.writeWvalue v).Inv := h.withFreeFields ..

theorem Block.Inv.appendTx {b : Block} (h : b.Inv) (x : Byte) (hr : b.txlen < 16) : (b.appendTx x).Inv :=
  h.withTx hr (set_zero_fill x h.tx_zero_fill)

/-- R144: with room left no byte was lost, so the byte put in the buffer may fill it. -/
theorem Block.Inv.appendRx {b : Block} (h : b.Inv) (x : Byte) (hr : b.rxcnt < 16) : (b.appendRx x).Inv :=
  h.withRx hr (set_zero_fill x h.rx_zero_fill) fun ho => absurd (h.overflow_full ho) (by omega)

/-- R105: one more byte is one more step from the seed. -/
theorem Block.Inv.crcByte {b : Block} (h : b.Inv) (x : Byte) : (b.crcByte x).Inv := by
  obtain ⟨xs, hxs⟩ := h.crc_reached
  have hstep : crcStep b.crc x = crc16 (xs ++ [x]) := by rw [crc16_append_singleton, hxs]
  rw [Block.crcByte, hstep]
  exact (h.withCrc (xs ++ [x])).setErr .ok

theorem Block.Inv.buildWrite {b : Block} (h : b.Inv) : b.buildWrite.Inv := by
  rw [Block.buildWrite_eq]
  have hreq := h.withRequest (writeRequest_length b.node b.regaddr b.wvalue) (by decide)
  exact ((hreq.withExpected b.node b.regaddr true).setErr .ok :)

theorem Block.Inv.buildRead {b : Block} (h : b.Inv) : b.buildRead.Inv := by
  rw [Block.buildRead_eq]
  have hreq := h.withRequest (readRequest_length b.node b.regaddr) (by decide)
  exact (hreq.withoutExpected.setErr .ok :)

theorem Block.Inv.txClear {b : Block} (h : b.Inv) : b.txClear.Inv :=
  (h.withRequest (req := []) rfl (Nat.zero_le 16)).setErr .ok

theorem Block.Inv.txPush {b : Block} (h : b.Inv) (x : Byte) : (b.txPush x).Inv := by
  by_cases hr : b.txlen < 16
  · rw [Block.txPush_of_room x hr]
    exact (h.appendTx x hr).setErr .ok
  · rw [Block.txPush_of_full x hr]
    exact h.setErr .cmdError

theorem Block.Inv.txAppendCrc {b : Block} (h : b.Inv) : b.txAppendCrc.Inv := by
  by_cases hr : b.txlen ≤ 14
  · rw [Block.txAppendCrc_of_room hr]
    refine ((h.appendTx _ ?_).appendTx _ ?_).setErr .ok
    · omega
    · rw [Block.appendTx_txlen]
      omega
  · rw [Block.txAppendCrc_of_full hr]
    exact h.setErr .cmdError

/-- R143: the cleared buffer has lost no byte. -/
theorem Block.Inv.rxClear {b : Block} (h : b.Inv) : b.rxClear.Inv :=
  (h.withRx (Nat.zero_le 16) (bufferOf_zero_fill 16 []) (ovf := false) (absurd · Bool.false_ne_true)).setErr .ok

/-- R144: the push that finds no room raises RXOVF, and the buffer it finds is full. -/
theorem Block.Inv.rxPush {b : Block} (h : b.Inv) (x : Byte) : (b.rxPush x).Inv := by
  by_cases hr : b.rxcnt < 16
  · rw [Block.rxPush_of_room x hr]
    exact (h.appendRx x hr).setErr .ok
  · have hfull : b.rxcnt = 16 := by
      have := h.rxcnt_le
      omega
    rw [Block.rxPush_of_full x hr]
    exact (h.withRx (ovf := true) h.rxcnt_le h.rx_zero_fill (fun _ => hfull)).setErr .ok

theorem Block.Inv.rxFrame {b : Block} (h : b.Inv) (xs : List Byte) : (b.rxFrame xs).Inv := by
  suffices hall : ∀ c : Block, c.Inv → (c.rxPushAll xs).Inv from hall _ h.rxClear
  induction xs with
  | nil => exact fun c hc => hc
  | cons x xs ih => exact fun c hc => ih _ (hc.rxPush x)

theorem Block.Inv.rxVerifyCrc {b : Block} (h : b.Inv) : b.rxVerifyCrc.Inv := by
  obtain ⟨c, e, -, heq⟩ := b.rxVerifyCrc_changes
  rw [heq]
  exact h.withFreeFields ..

theorem Block.Inv.checkWrite {b : Block} (h : b.Inv) : b.checkWrite.Inv := by
  obtain ⟨c, e, -, heq⟩ := b.checkWrite_changes
  rw [heq]
  exact h.withFreeFields ..

theorem Block.Inv.parseRead {b : Block} (h : b.Inv) : b.parseRead.Inv := by
  obtain ⟨e, -, -, heq⟩ | ⟨count, v, heq⟩ := b.parseRead_changes
  · rw [heq]
    exact h.withFreeFields ..
  · rw [heq]
    exact h.withFreeFields ..

theorem blockEffect_keeps_inv (i : Instr) {b : Block} (h : b.Inv) : (blockEffect i b).Inv := by
  cases i with
  | nop => exact h.setErr .ok
  | crcInit => exact (h.withCrc []).setErr .ok
  | crcByte x => exact h.crcByte x
  | buildWrite => exact h.buildWrite
  | buildRead => exact h.buildRead
  | txClear => exact h.txClear
  | txPush x => exact h.txPush x
  | txAppendCrc => exact h.txAppendCrc
  | rxClear => exact h.rxClear
  | rxPush x => exact h.rxPush x
  | rxVerifyCrc => exact h.rxVerifyCrc
  | checkWrite => exact h.checkWrite
  | parseRead => exact h.parseRead
  | frameWriteRequest n a v => exact (((h.writeNode _).writeRegaddr _).writeWvalue v).buildWrite
  | frameWriteResponse n a crc => exact ((h.rxFrame (writeResponse n a crc)).checkWrite :)
  | frameReadRequest n a => exact ((h.writeNode _).writeRegaddr _).buildRead
  | frameReadResponse n func count v crc => exact ((h.rxFrame (readResponse n func count v crc)).parseRead :)

theorem wordEffect_keeps_inv (w : Word) {b : Block} (h : b.Inv) : (wordEffect w b).Inv := by
  obtain heq | ⟨i, -, heq⟩ := wordEffect_cases w
  · rw [heq]
    exact h.setErr .cmdError
  · rw [heq]
    exact blockEffect_keeps_inv i h

theorem Block.reset_inv : Block.reset.Inv where
  txlen_le := Nat.zero_le 16
  rxcnt_le := Nat.zero_le 16
  tx_zero_fill _ _ := Vector.getElem_replicate _
  rx_zero_fill _ _ := Vector.getElem_replicate _
  overflow_full h := absurd h Bool.false_ne_true
  crc_reached := ⟨[], crc16_nil.symm⟩
  expected_built h := absurd h Bool.false_ne_true

/-- Settles O56: nothing was pushed or built yet, and the seed is the CRC of the empty list. -/
theorem resetHasTheInvariant : Obligations.ResetHasTheInvariant := Block.reset_inv

/-- Every effect a step can have on the block, by the event it takes. -/
theorem step_block {s t : State} {e : HostEvent} {rest : List HostEvent} (hp : s.pending = e :: rest)
    (h : step s = .next t) :
    (t.block = s.block ∧ ∀ w, e ≠ .write 4 0x00 w) ∨
    (∃ w, e = .write 4 0x00 w ∧ t.block = wordEffect w s.block) ∨
    (∃ v, e = .write 4 0x08 v ∧ t.block = s.block.writeNode v) ∨
    (∃ v, e = .write 4 0x0C v ∧ t.block = s.block.writeRegaddr v) ∨
    (∃ v, e = .write 4 0x10 v ∧ t.block = s.block.writeWvalue v) ∨
    (e = .reset ∧ t.block = Block.reset) ∨
    ∃ bytes i, e = .frame bytes ∧ decodeFrame bytes = .ok i ∧ t.block = blockEffect i s.block := by
  rw [step_event s hp] at h
  exact (hostEvent_block h).2

theorem step_keeps_inv {s t : State} (h : s.Inv) (hs : step s = .next t) : t.Inv := by
  cases hp : s.pending with
  | nil =>
    rw [step_idle s hp] at hs
    cases hs
    exact h
  | cons e rest =>
    show t.block.Inv
    obtain ⟨hb, -⟩ | ⟨w, -, hb⟩ | ⟨v, -, hb⟩ | ⟨v, -, hb⟩ | ⟨v, -, hb⟩ | ⟨-, hb⟩ | ⟨bytes, i, -, -, hb⟩ := step_block hp hs
    all_goals rw [hb]
    · exact h
    · exact wordEffect_keeps_inv w h
    · exact h.writeNode v
    · exact h.writeRegaddr v
    · exact h.writeWvalue v
    · exact Block.reset_inv
    · exact blockEffect_keeps_inv i h

/-- Settles O55, by the effects a step can have on the block, each of which keeps the invariant. -/
theorem stepKeepsTheInvariant : Obligations.StepKeepsTheInvariant := fun _ _ => step_keeps_inv

/-- What every step of a machine keeps, its runs keep. -/
theorem core_run_keeps (M : Host.Core) {P : M.State → Prop} (hstep : ∀ s t, P s → M.step s = .next t → P t) (k : Nat)
    {s t : M.State} (h : P s) (hr : M.run k s = .next t) : P t := by
  induction k generalizing s with
  | zero =>
    cases hr
    exact h
  | succ k ih =>
    rw [Host.Core.run] at hr
    split at hr
    · rename_i u hu
      exact ih (hstep s u h hu) hr
    · cases hr
    · cases hr

/-- Settles O57: a run from reset keeps the invariant, whose bounds fit in 5 bits. -/
theorem zeroFillInEveryReachableState : Obligations.ZeroFillInEveryReachableState := by
  intro es k t hr
  have hinv : t.block.Inv := core_run_keeps core stepKeepsTheInvariant k Block.reset_inv hr
  have htx := hinv.txlen_le
  have hrx := hinv.rxcnt_le
  refine ⟨htx, hrx, ?_, ?_, hinv.tx_zero_fill, hinv.rx_zero_fill⟩
  · rw [BitVec.toNat_ofNat]
    omega
  · rw [BitVec.toNat_ofNat]
    omega

/-! ## Accesses of mapped registers -/

/-- R52, R55: a legal read of a mapped register gives its word and changes the response alone. -/
theorem step_read_mapped {off : Nat} {r : BlockReg} (h : off < 0x100) (h4 : off % 4 = 0) (hr : regAt off = some r)
    (s : State) :
    step { s with pending := .read 4 off :: s.pending } = .next { s with response := .data (readReg r s.block) } := by
  rw [step_event _ rfl]
  simp [hostEvent, hostRead, accessLegal, Config.windowSize, Config.busBytes, h, h4, hr]

/-- R52, R54: a legal write of a mapped register is the register's own write. -/
theorem step_write_mapped {off : Nat} {r : BlockReg} (h : off < 0x100) (h4 : off % 4 = 0) (hr : regAt off = some r)
    (s : State) (v : Word) :
    step { s with pending := .write 4 off v :: s.pending } = writeReg r off v s := by
  rw [step_event _ rfl]
  simp [hostEvent, hostWrite, accessLegal, Config.windowSize, Config.busBytes, h, h4, hr]

/-- Settles O41: each offset is one of the map's, and the read of its register is its field. -/
theorem registerWindowReads : Obligations.RegisterWindowReads := by
  intro s
  refine ⟨?_, fun i => ?_, fun i => ?_, fun i => ?_⟩
  · simp only [List.forall_mem_cons]
    exact ⟨step_read_mapped (r := .cmd) (by decide) (by decide) rfl s,
      step_read_mapped (r := .node) (by decide) (by decide) rfl s,
      step_read_mapped (r := .regaddr) (by decide) (by decide) rfl s,
      step_read_mapped (r := .wvalue) (by decide) (by decide) rfl s,
      step_read_mapped (r := .crc) (by decide) (by decide) rfl s,
      step_read_mapped (r := .rdval) (by decide) (by decide) rfl s,
      step_read_mapped (r := .rdbc) (by decide) (by decide) rfl s, by simp⟩
  · exact step_read_mapped (by omega) (by omega) (regAt_txbuf i) s
  · exact step_read_mapped (by omega) (by omega) (regAt_rxbuf i) s
  · exact step_read_mapped (by omega) (by omega) (regAt_expbuf i) s

/-- A bit of a word is a digit of its number. -/
theorem getLsbD_eq_of_toNat {w : Word} {i : Nat} {c : Bool} (h : w.toNat / 2 ^ i % 2 = c.toNat) : w.getLsbD i = c := by
  rw [BitVec.getLsbD, Nat.testBit_eq_decide_div_mod_eq, h]
  cases c <;> rfl

/-- A range of bits of a word is a digit of its number in a larger base. -/
theorem toNat_extractLsb'_word (w : Word) (start len : Nat) :
    (w.extractLsb' start len).toNat = w.toNat / 2 ^ start % 2 ^ len := by
  rw [BitVec.extractLsb'_toNat, Nat.shiftRight_eq_div_pow]

theorem Err.code_toNat (e : Err) :
    e.code.toNat = match e with | .ok => 0 | .invalidResponse => 1 | .invalidCrc => 2 | .cmdError => 3 := by
  cases e <;> rfl

/-- Settles O42: every field is read off the number of the STATUS word. -/
theorem statusWordFields : Obligations.StatusWordFields := by
  intro s ht hr
  refine ⟨⟨statusWord s.block, step_read_mapped (r := .status) (by decide) (by decide) rfl s, ?_⟩,
    step_write_mapped (r := .status) (by decide) (by decide) rfl s⟩
  have hw := statusWord_toNat s.block ht hr
  have hovf := s.block.rxovf.toNat_le
  have hexp := s.block.expvalid.toNat_le
  have hcrc := s.block.crcok.toNat_le
  have herr := s.block.err.code.isLt
  refine ⟨?_, getLsbD_eq_of_toNat ?_, getLsbD_eq_of_toNat ?_, getLsbD_eq_of_toNat ?_, BitVec.eq_of_toNat_eq ?_, ?_,
    BitVec.eq_of_toNat_eq ?_, ?_, BitVec.eq_of_toNat_eq ?_⟩
  · exact (congrArg BitVec.toNat (statusWord_err s.block)).trans (Err.code_toNat _)
  all_goals
    simp only [toNat_extractLsb'_word, hw, BitVec.ofNat_eq_ofNat, BitVec.toNat_ofNat]
    omega

/-- Settles O43: each write is its register's own, and the read gives back what it stored. -/
theorem operandRegisterWrites : Obligations.OperandRegisterWrites := by
  intro s v
  refine ⟨⟨_, step_write_mapped (r := .node) (by decide) (by decide) rfl s v, rfl, ?_⟩,
    ⟨_, step_write_mapped (r := .regaddr) (by decide) (by decide) rfl s v, rfl, ?_⟩,
    ⟨_, step_write_mapped (r := .wvalue) (by decide) (by decide) rfl s v, rfl, ?_⟩⟩
  · exact step_read_mapped (r := .node) (by decide) (by decide) rfl _
  · exact step_read_mapped (r := .regaddr) (by decide) (by decide) rfl _
  · exact step_read_mapped (r := .wvalue) (by decide) (by decide) rfl _

/-- Settles O8: the reset block is written out field by field, and its buffers are filled with zeros. -/
theorem resetValues : Obligations.ResetValues :=
  ⟨rfl, rfl, rfl, rfl, fun _ => Vector.getElem_replicate _, rfl, fun _ => Vector.getElem_replicate _, rfl,
    fun _ => Vector.getElem_replicate _, rfl, rfl, rfl, rfl, rfl, rfl⟩

/-! ## Who writes which field -/

/-- Settles O49: the effects of a step that are left keep ERR. -/
theorem errIsLeftByNonCommands : Obligations.ErrIsLeftByNonCommands := by
  constructor
  · intro s t e rest hp h hcmd hframe hreset
    obtain ⟨hb, -⟩ | ⟨w, rfl, -⟩ | ⟨v, -, hb⟩ | ⟨v, -, hb⟩ | ⟨v, -, hb⟩ | ⟨rfl, -⟩ | ⟨bytes, i, rfl, -⟩ := step_block hp h
    · rw [hb]
    · exact absurd rfl (hcmd w)
    · rw [hb, Block.writeNode_err]
    · rw [hb, Block.writeRegaddr_err]
    · rw [hb, Block.writeWvalue_err]
    · exact absurd rfl hreset
    · exact absurd rfl (hframe bytes)
  · intro s ms rest hp
    rw [step_event s hp]
    rfl

/-- The instructions that a command word can stand for: all but the frames (R73, R80). -/
def isCommand : Instr → Bool
  | .frameWriteRequest .. | .frameWriteResponse .. | .frameReadRequest .. | .frameReadResponse .. => false
  | _ => true

theorem decodeOp_isCommand {op imm : Byte} {i : Instr} (h : decodeOp op imm = .ok i) : isCommand i = true := by
  unfold decodeOp withoutOperand at h
  repeat' split at h
  all_goals cases h <;> rfl

theorem decodeCommand_isCommand {w : Word} {i : Instr} (h : decodeCommand w = .ok i) : isCommand i = true := by
  unfold decodeCommand at h
  split at h
  · exact decodeOp_isCommand h
  · cases h

/-- Which fields each command can write: its footprint on the block (10_state.md R23 to R33, R48). -/
theorem blockEffect_footprint {i : Instr} (hi : isCommand i = true) (b : Block) :
    (∃ crc err, blockEffect i b = { b with crc := crc, err := err }) ∨
    (i = .buildWrite ∧ ∃ buf n exp, blockEffect i b =
      { b with txbuf := buf, txlen := n, expbuf := exp, expvalid := true, err := .ok }) ∨
    (i = .buildRead ∧ ∃ buf n, blockEffect i b =
      { b with txbuf := buf, txlen := n, expvalid := false, err := .ok }) ∨
    ((i = .txClear ∨ (∃ x, i = .txPush x) ∨ i = .txAppendCrc) ∧ ∃ buf n err, blockEffect i b =
      { b with txbuf := buf, txlen := n, err := err }) ∨
    ((i = .rxClear ∨ ∃ x, i = .rxPush x) ∧ ∃ buf n ovf, blockEffect i b =
      { b with rxbuf := buf, rxcnt := n, rxovf := ovf, err := .ok }) ∨
    ((i = .rxVerifyCrc ∨ i = .checkWrite ∨ i = .parseRead) ∧ ∃ crcok err, blockEffect i b =
      { b with crcok := crcok, err := err }) ∨
    (i = .parseRead ∧ ∃ count v, blockEffect i b =
      { b with crcok := true, err := .ok, rdbc := count, rdval := v }) := by
  cases i with
  | nop => exact .inl ⟨b.crc, .ok, rfl⟩
  | crcInit => exact .inl ⟨Config.crcSeed, .ok, rfl⟩
  | crcByte x => exact .inl ⟨crcStep b.crc x, .ok, rfl⟩
  | buildWrite => exact .inr (.inl ⟨rfl, _, _, _, b.buildWrite_eq⟩)
  | buildRead => exact .inr (.inr (.inl ⟨rfl, _, _, b.buildRead_eq⟩))
  | txClear => exact .inr (.inr (.inr (.inl ⟨.inl rfl, _, _, _, rfl⟩)))
  | txPush x =>
    obtain ⟨buf, n, h⟩ | h := b.txPush_changes x
    · exact .inr (.inr (.inr (.inl ⟨.inr (.inl ⟨x, rfl⟩), buf, n, .ok, h⟩)))
    · exact .inl ⟨b.crc, .cmdError, h⟩
  | txAppendCrc =>
    obtain ⟨buf, n, h⟩ | h := b.txAppendCrc_changes
    · exact .inr (.inr (.inr (.inl ⟨.inr (.inr rfl), buf, n, .ok, h⟩)))
    · exact .inl ⟨b.crc, .cmdError, h⟩
  | rxClear => exact .inr (.inr (.inr (.inr (.inl ⟨.inl rfl, _, _, _, rfl⟩))))
  | rxPush x =>
    obtain ⟨buf, n, ovf, h⟩ := b.rxPush_changes x
    exact .inr (.inr (.inr (.inr (.inl ⟨.inr ⟨x, rfl⟩, buf, n, ovf, h⟩))))
  | rxVerifyCrc =>
    obtain ⟨c, e, -, h⟩ := b.rxVerifyCrc_changes
    exact .inr (.inr (.inr (.inr (.inr (.inl ⟨.inl rfl, c, e, h⟩)))))
  | checkWrite =>
    obtain ⟨c, e, -, h⟩ := b.checkWrite_changes
    exact .inr (.inr (.inr (.inr (.inr (.inl ⟨.inr (.inl rfl), c, e, h⟩)))))
  | parseRead =>
    obtain ⟨e, -, -, h⟩ | ⟨count, v, h⟩ := b.parseRead_changes
    · exact .inr (.inr (.inr (.inr (.inr (.inl ⟨.inr (.inr rfl), false, e, h⟩)))))
    · exact .inr (.inr (.inr (.inr (.inr (.inr ⟨rfl, count, v, h⟩)))))
  | frameWriteRequest | frameWriteResponse | frameReadRequest | frameReadResponse => cases hi

/-- Settles O52, by the footprint of the command. -/
theorem resultFieldOwners : Obligations.ResultFieldOwners := by
  intro w i s t hd h
  rw [exec_eq_complete, State.complete_eq] at h
  cases h
  obtain ⟨crc, err, h⟩ | ⟨hi, buf, n, exp, h⟩ | ⟨hi, buf, n, h⟩ | ⟨hi, buf, n, err, h⟩ | ⟨hi, buf, n, ovf, h⟩ |
    ⟨hi, crcok, err, h⟩ | ⟨hi, count, v, h⟩ := blockEffect_footprint (decodeCommand_isCommand hd) s.block
  · simp [h]
  all_goals simp only [h, ne_eq, not_true_eq_false, or_false, false_implies, true_and, and_true]
  · simp [hi]
  · simp [hi]
  · exact fun _ => .inr (.inr hi)
  · exact fun _ => hi
  · exact fun _ => hi
  · exact ⟨fun _ => hi, fun _ => .inr (.inr hi)⟩

/-- No word written to CMD writes an operand register (R24 to R26). -/
theorem wordEffect_operands (w : Word) (b : Block) :
    (wordEffect w b).node = b.node ∧ (wordEffect w b).regaddr = b.regaddr ∧ (wordEffect w b).wvalue = b.wvalue := by
  obtain hw | ⟨i, hd, hw⟩ := wordEffect_cases w
  · rw [hw]
    exact ⟨rfl, rfl, rfl⟩
  · rw [hw]
    obtain ⟨_, _, h⟩ | ⟨-, _, _, _, h⟩ | ⟨-, _, _, h⟩ | ⟨-, _, _, _, h⟩ | ⟨-, _, _, _, h⟩ | ⟨-, _, _, h⟩ |
      ⟨-, _, _, h⟩ := blockEffect_footprint (decodeCommand_isCommand hd) b
    all_goals
      rw [h]
      exact ⟨rfl, rfl, rfl⟩

/-- Settles O51: of the effects of a step, a host write changes its own operand register alone, and a word written to CMD
none. -/
theorem operandRegisterOwners : Obligations.OperandRegisterOwners := by
  intro s t e rest hp h hreset hframe
  obtain ⟨hb, -⟩ | ⟨w, -, hb⟩ | ⟨v, he, hb⟩ | ⟨v, he, hb⟩ | ⟨v, he, hb⟩ | ⟨rfl, -⟩ | ⟨bytes, i, rfl, -⟩ := step_block hp h
  · simp [hb]
  · simp [hb, wordEffect_operands]
  · simp [hb, he]
  · simp [hb, he]
  · simp [hb, he]
  · exact absurd rfl hreset
  · exact absurd rfl (hframe bytes)

/-! ## CRC is read by the streaming commands alone (R23) -/

theorem Block.txPush_withCrc (x : Byte) (c : Half) (b : Block) :
    ({ b with crc := c } : Block).txPush x = { b.txPush x with crc := c } := by
  unfold Block.txPush
  split <;> rfl

/-- R127: the CRC appended is the one of the request's bytes, not the register. -/
theorem Block.txAppendCrc_withCrc (c : Half) (b : Block) :
    ({ b with crc := c } : Block).txAppendCrc = { b.txAppendCrc with crc := c } := by
  by_cases h : b.txlen ≤ 14
  · rw [Block.txAppendCrc_of_room h, Block.txAppendCrc_of_room (b := { b with crc := c }) h]
    rfl
  · rw [Block.txAppendCrc_of_full h, Block.txAppendCrc_of_full (b := { b with crc := c }) h]
    rfl

theorem Block.rxPush_withCrc (x : Byte) (c : Half) (b : Block) :
    ({ b with crc := c } : Block).rxPush x = { b.rxPush x with crc := c } := by
  unfold Block.rxPush
  split <;> rfl

theorem Block.rxFrame_withCrc (xs : List Byte) (c : Half) (b : Block) :
    ({ b with crc := c } : Block).rxFrame xs = { b.rxFrame xs with crc := c } := by
  rw [Block.rxFrame_eq, Block.rxFrame_eq]

theorem Block.rxVerifyCrc_withCrc (c : Half) (b : Block) :
    ({ b with crc := c } : Block).rxVerifyCrc = { b.rxVerifyCrc with crc := c } := by
  unfold Block.rxVerifyCrc
  split <;> rfl

theorem responseOutcome_withCrc (c : Half) (b : Block) : responseOutcome { b with crc := c } = responseOutcome b := rfl

theorem Block.checkWrite_withCrc (c : Half) (b : Block) :
    ({ b with crc := c } : Block).checkWrite = { b.checkWrite with crc := c } := by
  unfold Block.checkWrite
  rw [responseOutcome_withCrc]
  split
  · rfl
  · split <;> rfl

theorem Block.parseRead_withCrc (c : Half) (b : Block) :
    ({ b with crc := c } : Block).parseRead = { b.parseRead with crc := c } := by
  unfold Block.parseRead
  rw [responseOutcome_withCrc]
  split <;> rfl

/-- An instruction that is not a streaming command passes CRC through unread. -/
theorem blockEffect_withCrc {i : Instr} (hinit : i ≠ .crcInit) (hbyte : ∀ x, i ≠ .crcByte x) (c : Half) (b : Block) :
    blockEffect i { b with crc := c } = { blockEffect i b with crc := c } := by
  cases i with
  | nop => rfl
  | crcInit => exact absurd rfl hinit
  | crcByte x => exact absurd rfl (hbyte x)
  | buildWrite => simp only [blockEffect, Block.buildWrite_eq]
  | buildRead => simp only [blockEffect, Block.buildRead_eq]
  | txClear => rfl
  | txPush x => exact b.txPush_withCrc x c
  | txAppendCrc => exact b.txAppendCrc_withCrc c
  | rxClear => rfl
  | rxPush x => exact b.rxPush_withCrc x c
  | rxVerifyCrc => exact b.rxVerifyCrc_withCrc c
  | checkWrite => exact b.checkWrite_withCrc c
  | parseRead => exact b.parseRead_withCrc c
  | frameWriteRequest n a v => simp only [blockEffect, Block.requestWrite_eq]
  | frameWriteResponse n a crc => simp only [blockEffect, Block.rxFrame_withCrc, Block.checkWrite_withCrc]
  | frameReadRequest n a => simp only [blockEffect, Block.requestRead_eq]
  | frameReadResponse n func count v crc => simp only [blockEffect, Block.rxFrame_withCrc, Block.parseRead_withCrc]

/-- Only a streaming command changes CRC. -/
theorem blockEffect_crc_owner {i : Instr} {b : Block} (h : (blockEffect i b).crc ≠ b.crc) :
    i = .crcInit ∨ ∃ x, i = .crcByte x := by
  by_contra hi
  obtain ⟨hinit, hbyte⟩ := not_or.mp hi
  have hthrough : (blockEffect i { b with crc := b.crc }).crc = b.crc := by
    rw [blockEffect_withCrc hinit (not_exists.mp hbyte)]
  exact h hthrough

/-- No frame stands for a command word. -/
theorem decodeFrame_isCommand {bytes : List Byte} {i : Instr} (h : decodeFrame bytes = .ok i) : isCommand i = false := by
  unfold decodeFrame checkedRequest at h
  repeat' split at h
  all_goals cases h <;> rfl

/-- Settles O50: a streaming command is no frame, so the step that changes CRC is reset or a CMD write of one; every other
instruction passes CRC through unread. -/
theorem crcRegisterOwners : Obligations.CrcRegisterOwners := by
  constructor
  · intro s t e rest hp h hne
    obtain ⟨hb, -⟩ | ⟨w, he, hb⟩ | ⟨v, -, hb⟩ | ⟨v, -, hb⟩ | ⟨v, -, hb⟩ | ⟨he, -⟩ | ⟨bytes, i, -, hd, hb⟩ :=
      step_block hp h
    · exact absurd (congrArg Block.crc hb) hne
    · refine .inr ⟨w, he, ?_⟩
      obtain hw | ⟨i, hd, hw⟩ := wordEffect_cases w
      · rw [hb, hw] at hne
        exact absurd rfl hne
      · rw [hb, hw] at hne
        obtain rfl | ⟨x, rfl⟩ := blockEffect_crc_owner hne
        · exact .inl hd
        · exact .inr ⟨x, hd⟩
    · exact absurd (congrArg Block.crc hb) hne
    · exact absurd (congrArg Block.crc hb) hne
    · exact absurd (congrArg Block.crc hb) hne
    · exact .inl he
    · rw [hb] at hne
      have hframe := decodeFrame_isCommand hd
      obtain rfl | ⟨x, rfl⟩ := blockEffect_crc_owner hne
      · cases hframe
      · cases hframe
  · intro i s t c hinit hbyte h
    rw [exec_eq_complete, State.complete_eq] at h ⊢
    cases h
    rw [blockEffect_withCrc hinit hbyte]

end Sys2Proof.Machine

/-! PROOFS. The host port (spec/20_memory.md): what a read of any offset does, which accesses are refused, which do not
reach the block, and where the window lies on the bus. -/

namespace Sys2Proof.Machine

open Sys2Proof

/-! ## The window (R53, R63) -/

theorem windowOffset_eq_some_iff (base addr off : Nat) :
    windowOffset base addr = some off ↔ base ≤ addr ∧ addr < base + 0x100 ∧ addr = base + off := by
  rw [windowOffset, Config.windowSize]
  split
  case isTrue hin =>
    rw [Option.some.injEq]
    omega
  case isFalse hout =>
    simp only [reduceCtorEq, false_iff]
    omega

theorem windowOffset_busAddress (base : Nat) {off : Nat} (h : off < 0x100) :
    windowOffset base (busAddress base off) = some off := by
  rw [busAddress, windowOffset_eq_some_iff]
  omega

/-- Settles O46: the window is the addresses `base + off` with `off < 0x100`. -/
theorem windowOffsetsOfBusAddresses : Obligations.WindowOffsetsOfBusAddresses :=
  fun base addr off => ⟨windowOffset_busAddress base, windowOffset_eq_some_iff base addr off⟩

/-- R53: a read past the window gives the platform's answer, whatever its width. -/
theorem hostRead_of_past (width : Nat) {off : Nat} (h : 0x100 ≤ off) (s : State) :
    hostRead width off s = { s with response := .platform off } := by
  rw [hostRead, Config.windowSize, if_neg (Nat.not_lt.mpr h)]

/-- R53: a write past the window gives the platform's answer, whatever its width. -/
theorem hostWrite_of_past (width : Nat) {off : Nat} (v : Word) (h : 0x100 ≤ off) (s : State) :
    hostWrite width off v s = .next { s with response := .platform off } := by
  rw [hostWrite, Config.windowSize, if_neg (Nat.not_lt.mpr h)]

/-- Settles O45, by the read and the write past the window. -/
theorem accessesPastTheWindowDoNotReachTheBlock : Obligations.AccessesPastTheWindowDoNotReachTheBlock := by
  intro s width off v e rest h he hp
  rw [step_event s hp]
  obtain rfl | rfl := he
  · exact congrArg Host.Outcome.next (hostRead_of_past width h _)
  · exact hostWrite_of_past width v h _

/-! ## Refused accesses (R52 to R54, R203) -/

theorem accessLegal_iff (width off : Nat) : accessLegal width off = true ↔ width = 4 ∧ off % 4 = 0 := by
  simp [accessLegal, Config.busBytes]

/-- R52, R53: a read in the window of another width, misaligned, or of no register is refused. -/
theorem hostRead_of_refused {width off : Nat} (h : off < 0x100)
    (hbad : width ≠ 4 ∨ off % 4 ≠ 0 ∨ regAt off = none) (s : State) : hostRead width off s = s.refuseAccess off := by
  rw [hostRead, Config.windowSize, if_pos h]
  by_cases hl : accessLegal width off = true
  · obtain ⟨hw, h4⟩ := (accessLegal_iff width off).mp hl
    obtain hw' | h4' | hr := hbad
    · exact absurd hw hw'
    · exact absurd h4 h4'
    · rw [if_pos hl, hr]
  · rw [if_neg hl]

/-- R54: only a legal write of CMD, NODE, REGADDR or WVALUE is not refused in the window. -/
theorem hostWrite_of_refused {width off : Nat} (v : Word) (h : off < 0x100)
    (hbad : width ≠ 4 ∨ off ≠ 0x00 ∧ off ≠ 0x08 ∧ off ≠ 0x0C ∧ off ≠ 0x10) (s : State) :
    hostWrite width off v s = .next (s.refuseAccess off) := by
  obtain ⟨hw, ho, -⟩ | ⟨hw, ho, -⟩ | ⟨hw, ho, -⟩ | ⟨hw, ho, -⟩ | ⟨-, hrefused⟩ | ⟨hpast, -⟩ :=
    hostWrite_cases width off v s
  · omega
  · omega
  · omega
  · omega
  · exact hrefused
  · omega

/-- Settles O44: a refused read is of no register, a refused write of none of the four that take one; CMD reads as 0. -/
theorem refusedAccessesChangeNothing : Obligations.RefusedAccessesChangeNothing := by
  constructor
  · intro s width off v e rest h he hp hbad
    rw [step_event s hp]
    obtain rfl | rfl := he
    · have hbad' : width ≠ 4 ∨ off % 4 ≠ 0 ∨ regAt off = none := by
        obtain hw | h4 | hlo | hhi | ⟨hwrite, -⟩ := hbad
        · exact .inl hw
        · exact .inr (.inl h4)
        · exact .inr (.inr ((regAt_eq_none off h).mpr (.inl hlo)))
        · exact .inr (.inr ((regAt_eq_none off h).mpr (.inr hhi.1)))
        · cases hwrite
      exact congrArg Host.Outcome.next (hostRead_of_refused h hbad' _)
    · exact hostWrite_of_refused v h (by omega) _
  · exact step_read_mapped (r := .cmd) (by decide) (by decide) rfl

/-! ## Reads (R55) -/

/-- Settles O40: a read keeps the block and takes its response from it; that of a mapped register is its word. -/
theorem readsHaveNoSideEffects : Obligations.ReadsHaveNoSideEffects := by
  constructor
  · intro s width off rest hp
    refine ⟨_, step_event s hp, hostRead_block width off _, hostRead_pending width off _, ?_⟩
    exact fun q more hq hqp => ⟨_, step_event q hqp, hostRead_response_congr width off hq⟩
  · intro s off r rest hp h h4 hr
    have hread := step_read_mapped h h4 hr { s with pending := rest }
    rwa [← hp] at hread

end Sys2Proof.Machine

/-! PROOFS. The encoding (spec/30_encoding.md): the decoder and the encoder are inverse to each other on the well-formed
instructions, what the three tests and the masks of a command word select, which instruction a step runs, and what the
frames and the frames given byte by byte leave in the block. -/

namespace Sys2Proof.Machine

open Sys2Proof

/-! ## Command words (R71 to R76) -/

theorem withoutOperand_eq_ok_iff {imm : Byte} {i j : Instr} : withoutOperand imm i = .ok j ↔ imm = 0 ∧ i = j := by
  unfold withoutOperand
  split
  case isTrue h => simp [h]
  case isFalse h => exact ⟨nofun, fun hij => absurd hij.1 h⟩

/-- The instruction an OP and its operand decode to is written with that OP and that operand. -/
theorem encode_of_decodeOp {op imm : Byte} {i : Instr} (h : decodeOp op imm = .ok i) :
    encode i = .command (commandWord imm op) := by
  unfold decodeOp at h
  split at h
  case h_3 | h_7 | h_10 => cases h; rfl
  case h_14 => cases h
  all_goals
    obtain ⟨rfl, rfl⟩ := withoutOperand_eq_ok_iff.mp h
    rfl

theorem decodeCommand_eq_ok_iff {w : Word} {i : Instr} :
    decodeCommand w = .ok i ↔ resField w = 0 ∧ decodeOp (opField w) (immField w) = .ok i := by
  unfold decodeCommand
  split
  case isTrue h => simp [h]
  case isFalse h => exact ⟨nofun, fun hop => absurd hop.1 h⟩

theorem encode_of_decodeCommand {w : Word} {i : Instr} (h : decodeCommand w = .ok i) : encode i = .command w := by
  obtain ⟨hres, hop⟩ := decodeCommand_eq_ok_iff.mp h
  rw [encode_of_decodeOp hop, ← eq_commandWord hres]

theorem wellFormed_of_isCommand {i : Instr} (h : isCommand i = true) : i.wellFormed = true := by
  cases i with
  | frameWriteRequest | frameWriteResponse | frameReadRequest | frameReadResponse => cases h
  | _ => rfl

theorem decode_encode_of_isCommand {i : Instr} (h : isCommand i = true) : decode (encode i) = .ok i := by
  cases i with
  | frameWriteRequest | frameWriteResponse | frameReadRequest | frameReadResponse => cases h
  | _ => exact decodeCommand_commandWord _ _

/-! ## Frames (R80 to R85) -/

/-- The fixed bytes of R82 in the places of a read response's function byte and value bytes (log entry 6). -/
theorem writeResponseShape_fromBe32 (func b3 b4 b5 b6 : Byte) :
    writeResponseShape func (fromBe32 b3 b4 b5 b6) = true ↔ func = 0x06 ∧ b4 = 0x00 ∧ b5 = 0x01 ∧ b6 = 0x04 := by
  have hlow : (fromBe32 b3 b4 b5 b6).extractLsb' 0 24 = b4 ++ b5 ++ b6 := by
    apply BitVec.eq_of_toNat_eq
    have := b4.isLt
    have := b5.isLt
    have := b6.isLt
    simp only [BitVec.extractLsb'_toNat, fromBe32_toNat, toNat_append_byte, Nat.shiftRight_zero]
    omega
  have hfixed : b4 ++ b5 ++ b6 = Config.writeQuantity ++ Config.writeByteCount ↔
      b4 = 0x00 ∧ b5 = 0x01 ∧ b6 = 0x04 := by
    have := b4.isLt
    have := b5.isLt
    have := b6.isLt
    simp only [Config.writeQuantity, Config.writeByteCount, ← BitVec.toNat_inj, toNat_append_byte,
      BitVec.ofNat_eq_ofNat, BitVec.toNat_ofNat]
    omega
  simp [writeResponseShape, hlow, hfixed, Config.writeFunction]

theorem checkedRequest_eq_ok_iff {bytes frame : List Byte} {crc : Half} {i j : Instr} :
    checkedRequest bytes frame crc i = .ok j ↔ bytes = frame ∧ i = j := by
  unfold checkedRequest
  split
  case isTrue h => simp [h]
  case isFalse h => exact ⟨nofun, fun hij => absurd hij.1 h⟩

/-- The decoder takes the 13 bytes of a write request with any CRC field, and asks whether they are that request's. -/
theorem decodeFrame_writeHead_value (n : Byte) (a : Half) (v : Word) (crc : Half) :
    decodeFrame (writeHead n a ++ be32 v ++ be16 crc) =
      checkedRequest (writeHead n a ++ be32 v ++ be16 crc) (writeRequest n a v) crc (.frameWriteRequest n a v) := by
  show checkedRequest _ (writeRequest n (fromBe16 _ _) (fromBe32 _ _ _ _)) (fromBe16 _ _)
    (.frameWriteRequest n (fromBe16 _ _) (fromBe32 _ _ _ _)) = _
  rw [fromBe16_extract, fromBe16_extract, fromBe32_extract]

theorem decodeFrame_writeRequest (n : Byte) (a : Half) (v : Word) :
    decodeFrame (writeRequest n a v) = .ok (.frameWriteRequest n a v) :=
  (decodeFrame_writeHead_value n a v (crc16 (writeHead n a ++ be32 v))).trans (if_pos rfl)

/-- The decoder takes the 8 bytes of a read request with any CRC field, and asks whether they are that request's. -/
theorem decodeFrame_readHead (n : Byte) (a crc : Half) :
    decodeFrame ([n, Config.readFunction] ++ be16 a ++ be16 Config.readQuantity ++ be16 crc) =
      checkedRequest ([n, Config.readFunction] ++ be16 a ++ be16 Config.readQuantity ++ be16 crc) (readRequest n a) crc
        (.frameReadRequest n a) := by
  show checkedRequest _ (readRequest n (fromBe16 _ _)) (fromBe16 _ _) (.frameReadRequest n (fromBe16 _ _)) = _
  rw [fromBe16_extract, fromBe16_extract]

theorem decodeFrame_readRequest (n : Byte) (a : Half) :
    decodeFrame (readRequest n a) = .ok (.frameReadRequest n a) :=
  (decodeFrame_readHead n a (crc16 ([n, Config.readFunction] ++ be16 a ++ be16 Config.readQuantity))).trans (if_pos rfl)

theorem decodeFrame_writeResponse (n : Byte) (a crc : Half) :
    decodeFrame (writeResponse n a crc) = .ok (.frameWriteResponse n a crc) := by
  show Except.ok (Instr.frameWriteResponse n (fromBe16 _ _) (fromBe16 _ _)) = _
  rw [fromBe16_extract, fromBe16_extract]

theorem decodeFrame_readResponse {func : Byte} {v : Word} (h : writeResponseShape func v = false) (n count : Byte)
    (crc : Half) :
    decodeFrame (readResponse n func count v crc) = .ok (.frameReadResponse n func count v crc) := by
  rw [← fromBe32_extract v] at h
  have hfixed := mt (writeResponseShape_fromBe32 func _ _ _ _).mpr (Bool.not_eq_true _ ▸ h)
  refine (if_neg hfixed).trans ?_
  rw [fromBe32_extract, fromBe16_extract]

/-- The decoder keeps every byte of a frame: a field holds it, it is fixed, or it is of the CRC that was compared. -/
theorem wellFormed_and_encode_of_decodeFrame {bytes : List Byte} {i : Instr} (h : decodeFrame bytes = .ok i) :
    i.wellFormed = true ∧ encode i = .frame bytes := by
  unfold decodeFrame at h
  split at h
  case h_1 | h_2 =>
    split at h
    · obtain ⟨hreq, rfl⟩ := checkedRequest_eq_ok_iff.mp h
      exact ⟨rfl, congrArg RawInstr.frame hreq.symm⟩
    · cases h
  case h_3 n b1 b2 b3 b4 b5 b6 c1 c0 =>
    split at h
    case isTrue hfixed =>
      obtain ⟨rfl, rfl, rfl, rfl⟩ := hfixed
      cases h
      refine ⟨rfl, congrArg RawInstr.frame ?_⟩
      rw [writeResponse, writeHead, be16_fromBe16, be16_fromBe16]
      rfl
    case isFalse hfixed =>
      cases h
      refine ⟨?_, congrArg RawInstr.frame ?_⟩
      · rw [Instr.wellFormed, Bool.not_eq_true', ← Bool.not_eq_true, writeResponseShape_fromBe32]
        exact hfixed
      · rw [readResponse, be32_fromBe32, be16_fromBe16]
        rfl
  case h_4 => cases h

/-! ## The decoder and the encoder are inverse to each other -/

/-- Settles O3, by the kind of instruction: a command's word has its OP and operand in its fields, a frame's bytes its
fields high byte first. -/
theorem decodeOfEncode : Obligations.DecodeOfEncode := by
  intro i hi
  cases i with
  | frameWriteRequest n a v => exact decodeFrame_writeRequest n a v
  | frameWriteResponse n a crc => exact decodeFrame_writeResponse n a crc
  | frameReadRequest n a => exact decodeFrame_readRequest n a
  | frameReadResponse n func count v crc =>
    rw [Instr.wellFormed, Bool.not_eq_true'] at hi
    exact decodeFrame_readResponse hi n count crc
  | _ => exact decode_encode_of_isCommand rfl

/-- Settles O4: what a word decodes to is written for that word, and what a byte string decodes to for those bytes. -/
theorem encodeOfDecode : Obligations.EncodeOfDecode := by
  intro r i h
  cases r with
  | command w => exact ⟨wellFormed_of_isCommand (decodeCommand_isCommand h), encode_of_decodeCommand h⟩
  | frame bytes => exact wellFormed_and_encode_of_decodeFrame h

theorem decode_eq_ok_iff {r : RawInstr} {i : Instr} : decode r = .ok i ↔ i.wellFormed = true ∧ encode i = r :=
  ⟨encodeOfDecode r i, fun ⟨hi, hr⟩ => hr ▸ decodeOfEncode i hi⟩

/-- Only a command is written as a word, so a word decodes to the instruction that is written as it. -/
theorem decodeCommand_eq_ok_iff_encode {w : Word} {i : Instr} : decodeCommand w = .ok i ↔ encode i = .command w := by
  refine ⟨encode_of_decodeCommand, fun h => decode_eq_ok_iff.mpr ⟨?_, h⟩⟩
  cases i with
  | frameWriteRequest | frameWriteResponse | frameReadRequest | frameReadResponse => cases h
  | _ => rfl

/-! ## Which words are legal (R74) -/

/-- R73, R74.1, R74.3: the OPs, and those among them that take an operand. -/
theorem decodeOp_isOk_iff (op imm : Byte) :
    (∃ i, decodeOp op imm = .ok i) ↔
      op ∈ [0x00#8, 0x01#8, 0x02#8, 0x10#8, 0x11#8, 0x12#8, 0x13#8, 0x14#8, 0x20#8, 0x21#8, 0x22#8, 0x23#8, 0x24#8] ∧
      (imm = 0#8 ∨ op ∈ [0x02#8, 0x13#8, 0x21#8]) := by
  unfold decodeOp
  split
  case h_14 => simp_all
  all_goals simp [withoutOperand_eq_ok_iff]

theorem opField_and_mask (w : Word) : opField (w &&& 0xFFFF00FF#32) = opField w := by
  rw [opField, BitVec.extractLsb'_and, show (0xFFFF00FF#32).extractLsb' 0 8 = BitVec.allOnes 8 by decide,
    BitVec.and_allOnes, opField]

theorem immField_and_mask (w : Word) : immField (w &&& 0xFFFF00FF#32) = 0 := by
  rw [immField, BitVec.extractLsb'_and, show (0xFFFF00FF#32).extractLsb' 8 8 = 0 by decide]
  exact BitVec.and_zero

theorem resField_and_mask (w : Word) : resField (w &&& 0xFFFF00FF#32) = resField w := by
  rw [resField, BitVec.extractLsb'_and, show (0xFFFF00FF#32).extractLsb' 16 16 = BitVec.allOnes 16 by decide,
    BitVec.and_allOnes, resField]

/-- R74: the mask of a command with an operand looks at OP and RES, and not at IMM8. -/
theorem and_mask_eq_commandWord_iff (w : Word) (op : Byte) :
    w &&& 0xFFFF00FF#32 = commandWord 0 op ↔ resField w = 0 ∧ opField w = op := by
  constructor
  · intro h
    have hres := congrArg resField h
    have hop := congrArg opField h
    rw [resField_and_mask, resField_commandWord] at hres
    rw [opField_and_mask, opField_commandWord] at hop
    exact ⟨hres, hop⟩
  · rintro ⟨hres, rfl⟩
    have hword := eq_commandWord (w := w &&& 0xFFFF00FF#32) (by rw [resField_and_mask, hres])
    rwa [immField_and_mask, opField_and_mask] at hword

theorem exists_commandWord_eq_iff (w : Word) (op : Byte) :
    (∃ b, commandWord b op = w) ↔ w &&& 0xFFFF00FF#32 = commandWord 0 op := by
  rw [and_mask_eq_commandWord_iff]
  constructor
  · rintro ⟨b, rfl⟩
    exact ⟨resField_commandWord b op, opField_commandWord b op⟩
  · rintro ⟨hres, rfl⟩
    exact ⟨immField w, (eq_commandWord hres).symm⟩

/-- A command with an operand is decoded from the words its mask selects. -/
theorem exists_decodeCommand_iff (c : Byte → Instr) (op : Byte)
    (hc : ∀ b, encode (c b) = .command (commandWord b op)) (w : Word) :
    (∃ b, decodeCommand w = .ok (c b)) ↔ w &&& 0xFFFF00FF#32 = commandWord 0 op := by
  simp only [decodeCommand_eq_ok_iff_encode, hc, RawInstr.command.injEq]
  exact exists_commandWord_eq_iff w op

/-- A command without operand is decoded from its own word alone. -/
theorem decodeCommand_iff_and_allOnes {i : Instr} {c : Word} (hi : encode i = .command c) (w : Word) :
    decodeCommand w = .ok i ↔ w &&& 0xFFFFFFFF#32 = c := by
  rw [decodeCommand_eq_ok_iff_encode, hi, RawInstr.command.injEq, eq_comm,
    show 0xFFFFFFFF#32 = BitVec.allOnes 32 by decide, BitVec.and_allOnes]

/-- Settles O2: the tests are those of the OP and of RES, and a mask keeps the fields that its command looks at. -/
theorem legalWordsAreSelectedByMask : Obligations.LegalWordsAreSelectedByMask := by
  intro w
  refine ⟨?_, ?_, exists_decodeCommand_iff .crcByte 0x02 (fun _ => rfl) w,
    exists_decodeCommand_iff .txPush 0x13 (fun _ => rfl) w, exists_decodeCommand_iff .rxPush 0x21 (fun _ => rfl) w⟩
  · simp only [decodeCommand_eq_ok_iff, exists_and_left, decodeOp_isOk_iff]
    exact and_left_comm
  · simp only [List.forall_mem_cons]
    exact ⟨decodeCommand_iff_and_allOnes rfl w, decodeCommand_iff_and_allOnes rfl w, decodeCommand_iff_and_allOnes rfl w,
      decodeCommand_iff_and_allOnes rfl w, decodeCommand_iff_and_allOnes rfl w, decodeCommand_iff_and_allOnes rfl w,
      decodeCommand_iff_and_allOnes rfl w, decodeCommand_iff_and_allOnes rfl w, decodeCommand_iff_and_allOnes rfl w,
      decodeCommand_iff_and_allOnes rfl w, by simp⟩

/-! ## The spec's own words and frames (R72, R73, R76, R81 to R84) -/

/-- Settles O1: each word and each byte string is the one written for its instruction. -/
theorem specWordsDecode : Obligations.SpecWordsDecode :=
  ⟨decodeCommand_commandWord 0 0x00, decodeCommand_commandWord 0 0x01, decodeCommand_commandWord 0 0x10,
    decodeCommand_commandWord 0 0x11, decodeCommand_commandWord 0 0x12, decodeCommand_commandWord 0 0x14,
    decodeCommand_commandWord 0 0x20, decodeCommand_commandWord 0 0x22, decodeCommand_commandWord 0 0x23,
    decodeCommand_commandWord 0 0x24,
    fun b => ⟨decodeCommand_commandWord b 0x02, decodeCommand_commandWord b 0x13, decodeCommand_commandWord b 0x21⟩,
    decode_eq_ok_iff.mpr ⟨rfl, by decide +kernel⟩, decode_eq_ok_iff.mpr ⟨rfl, rfl⟩,
    decode_eq_ok_iff.mpr ⟨rfl, by decide +kernel⟩, decode_eq_ok_iff.mpr ⟨rfl, rfl⟩⟩

/-! ## Which instruction a step runs (R70) -/

theorem hostEvent_eventOfRaw {r : RawInstr} {i : Instr} (h : decode r = .ok i) (s : State) :
    hostEvent (eventOfRaw r) s = exec i { s with response := .done } := by
  cases r with
  | command w =>
    show runCommand w { s with response := .done } = _
    rw [runCommand, show decodeCommand w = .ok i from h]
  | frame bytes =>
    show runFrame bytes s = _
    rw [runFrame, show decodeFrame bytes = .ok i from h]

theorem decodeTableWord_eq_some_iff {nbits w : Nat} {i : Instr} :
    decodeTableWord nbits w = some i ↔ decode (rawOfTableWord nbits w) = .ok i := by
  unfold decodeTableWord
  cases decode (rawOfTableWord nbits w) <;> simp

/-- Settles O5, by whether the word decodes. -/
theorem stepRunsTheCommandWord : Obligations.StepRunsTheCommandWord := by
  intro s w rest hp
  rw [step_event s hp]
  cases h : decodeCommand w with
  | ok i => exact hostEvent_eventOfRaw (r := .command w) h _
  | error e =>
    show runCommand w { s with pending := rest, response := .done } = _
    rw [runCommand, h]
    rfl

/-- Settles O6: the step takes the event of the instruction, and a table word's event is put before what is pending. -/
theorem stepRunsTheDecodedInstruction : Obligations.StepRunsTheDecodedInstruction := by
  constructor
  · intro r i s rest hd hp
    rw [step_event s hp]
    exact hostEvent_eventOfRaw hd _
  · intro nbits w i s hd
    rw [step_event (s.withFetchWord nbits w) rfl]
    exact hostEvent_eventOfRaw (decodeTableWord_eq_some_iff.mp hd) _

/-! ## The request frames (R81, R83) -/

/-- Settles O29: what the requests write, with the buffers read as lists. -/
theorem frameRequestsAreBuilt : Obligations.FrameRequestsAreBuilt := by
  constructor
  · intro n a v s
    refine ⟨_, _, exec_eq_complete _ s, rfl, ?_, ?_, ?_⟩
    · simp only [blockEffect, Block.requestWrite_eq]
      exact bufferOf_toList (by simp)
    · simp only [blockEffect, Block.requestWrite_eq]
      exact bufferOf_toList_self (writeExpected n a)
    · simp only [blockEffect, Block.requestWrite_eq]
  · intro n a s
    refine ⟨_, _, exec_eq_complete _ s, rfl, ?_, ?_⟩
    · simp only [blockEffect, Block.requestRead_eq]
      exact bufferOf_toList (by simp)
    · simp only [blockEffect, Block.requestRead_eq]

/-! ## The response frames (R82, R84) -/

/-- R142.1, R142.2: of a received frame of nine bytes both checks test the CRC alone. -/
theorem responseOutcome_rxFrame {f : List Byte} (hf : f.length = 9) (b : Block) :
    responseOutcome (b.rxFrame f) = if verifyCrc f then .ok else .invalidCrc := by
  obtain ⟨hovf, hcnt, hbytes⟩ := rxFrame_nine hf b
  rw [responseOutcome_of_lenOk hovf hcnt, hbytes]

/-- R77: a frame of nine bytes is received whole. -/
theorem Block.rxFrame_eq_of_nine {f : List Byte} (hf : f.length = 9) (b : Block) :
    b.rxFrame f = { b with rxbuf := bufferOf 16 f, rxcnt := 9, rxovf := false, err := .ok } := by
  rw [Block.rxFrame_eq, List.take_of_length_le (by omega), hf]
  rfl

/-- R146: what CHECK_WRITE does after a frame of nine bytes was received. -/
theorem Block.checkWrite_rxFrame {f : List Byte} (hf : f.length = 9) (b : Block) :
    (b.rxFrame f).checkWrite =
      { b with
        rxbuf := bufferOf 16 f, rxcnt := 9, rxovf := false,
        crcok := if b.expvalid = true then verifyCrc f else b.crcok,
        err := if b.expvalid = false then .cmdError
          else if verifyCrc f = false then .invalidCrc
          else if f = b.expbuf.toList then .ok else .invalidResponse } := by
  have houtcome := responseOutcome_rxFrame hf b
  obtain ⟨-, -, hbytes⟩ := rxFrame_nine hf b
  have hexp : (b.rxFrame f).expvalid = b.expvalid := by rw [Block.rxFrame_eq]
  have hexpbuf : (b.rxFrame f).expbuf = b.expbuf := by rw [Block.rxFrame_eq]
  cases hv : b.expvalid with
  | false =>
    rw [Block.checkWrite_of_invalid (hexp.trans hv), Block.rxFrame_eq_of_nine hf]
    simp [Block.setErr, hv]
  | true =>
    rw [Block.checkWrite_of_valid (hexp.trans hv), houtcome, contentOutcome_eq, hbytes, hexpbuf,
      Block.rxFrame_eq_of_nine hf]
    cases verifyCrc f with
    | false => simp [Block.setCheck, hv]
    | true => simp [Block.setCheck, hv]

/-- R147: what PARSE_READ does after a frame of nine bytes was received. -/
theorem Block.parseRead_rxFrame {f : List Byte} (hf : f.length = 9) (b : Block) :
    (b.rxFrame f).parseRead =
      { b with
        rxbuf := bufferOf 16 f, rxcnt := 9, rxovf := false, crcok := verifyCrc f,
        rdbc := if verifyCrc f = true then (parseReadResponse f).1 else b.rdbc,
        rdval := if verifyCrc f = true then (parseReadResponse f).2 else b.rdval,
        err := if verifyCrc f = true then .ok else .invalidCrc } := by
  have houtcome := responseOutcome_rxFrame hf b
  obtain ⟨-, -, hbytes⟩ := rxFrame_nine hf b
  rw [Block.parseRead, houtcome, firstBytes, Config.responseLength, hbytes, Block.rxFrame_eq_of_nine hf]
  cases verifyCrc f with
  | false => simp [Block.setCheck]
  | true => simp [Block.setCheck]

/-- R82: a write response verifies where its CRC field is the CRC of its first seven bytes. -/
theorem verifyCrc_writeResponse (n : Byte) (a crc : Half) :
    verifyCrc (writeResponse n a crc) = decide (crc = crc16 ((writeResponse n a crc).take 7)) :=
  verifyCrc_append_be16 (writeHead n a) crc

/-- R84: a read response verifies where its CRC field is the CRC of its first seven bytes. -/
theorem verifyCrc_readResponse (n func count : Byte) (v : Word) (crc : Half) :
    verifyCrc (readResponse n func count v crc) = decide (crc = crc16 ((readResponse n func count v crc).take 7)) :=
  verifyCrc_append_be16 ([n, func, count] ++ be32 v) crc

/-- Settles O30: the write response's nine bytes are received and checked. -/
theorem frameWriteResponseIsChecked : Obligations.FrameWriteResponseIsChecked := by
  intro n a crc s
  refine ⟨_, _, exec_eq_complete _ s, rfl, ?_, ?_⟩
  · simp only [blockEffect, Block.checkWrite_rxFrame (writeResponse_length n a crc)]
    exact bufferOf_toList (by simp)
  · simp only [blockEffect, Block.checkWrite_rxFrame (writeResponse_length n a crc), verifyCrc_writeResponse,
      decide_eq_false_iff_not, ne_eq]

/-- Settles O31: the read response's nine bytes are received and parsed, and the parser reads its fields back. -/
theorem frameReadResponseIsParsed : Obligations.FrameReadResponseIsParsed := by
  intro n func count v crc s
  refine ⟨_, _, exec_eq_complete _ s, rfl, ?_, ?_⟩
  · simp only [blockEffect, Block.parseRead_rxFrame (readResponse_length n func count v crc)]
    exact bufferOf_toList (by simp)
  · simp only [blockEffect, Block.parseRead_rxFrame (readResponse_length n func count v crc), verifyCrc_readResponse,
      parseReadResponse_readResponse, decide_eq_true_eq]

/-! ## Frames given byte by byte (R77) -/

/-- Settles O34: RXFRAME's pushes keep the first sixteen bytes and count up to sixteen. -/
theorem receivedFrameFillsTheBuffer : Obligations.ReceivedFrameFillsTheBuffer := by
  intro bs s
  obtain ⟨r, hrun⟩ := runEvents_rxFrame bs s
  refine ⟨_, hrun, ?_, ?_, rfl⟩
  · have hzeros : 16 - (bs.take 16).length = 16 - bs.length := by rw [List.length_take]; omega
    simp only [Block.rxFrame_eq]
    rw [bufferOf_toList (List.length_take_le 16 bs), hzeros]
  · simp only [Block.rxFrame_eq]

theorem bufferOf_push_two {n : Nat} (f : List Byte) (x y : Byte) :
    ((bufferOf n f).setIfInBounds f.length x).setIfInBounds (f.length + 1) y = bufferOf n (f ++ [x, y]) := by
  have hlen : f.length + 1 = (f ++ [x]).length := by simp
  rw [bufferOf_push, hlen, bufferOf_push, List.append_assoc, List.singleton_append]

/-- R127: TX_APPEND_CRC puts a request's CRC behind it. -/
theorem Block.txAppendCrc_of_txbuf {b : Block} {f : List Byte} (hf : f.length ≤ 14) (hbuf : b.txbuf = bufferOf 16 f)
    (hlen : b.txlen = f.length) :
    b.txAppendCrc = { b with txbuf := bufferOf 16 (appendCrc f), txlen := f.length + 2, err := .ok } := by
  have hbytes : b.txBytes = f := by
    rw [Block.txBytes, hbuf, hlen]
    exact firstBytes_bufferOf (by omega)
  rw [Block.txAppendCrc_of_room (by omega), hbytes]
  simp only [Block.appendTx, Block.setErr, hlen, hbuf, bufferOf_push_two]
  rfl

/-- Settles O35: the bytes are pushed, and their CRC behind them. -/
theorem handBuiltFrameIsAppended : Obligations.HandBuiltFrameIsAppended := by
  intro bs s hbs
  obtain ⟨r, hframe⟩ := runEvents_txFrame bs s
  have hblock : (s.block.txFrame bs).txAppendCrc =
      { s.block with txbuf := bufferOf 16 (appendCrc bs), txlen := bs.length + 2, err := .ok } := by
    rw [Block.txFrame_eq bs s.block (by omega)]
    exact Block.txAppendCrc_of_txbuf hbs rfl rfl
  have hcrc : runEvents [issue .txAppendCrc] { s with block := s.block.txFrame bs, response := r } =
      .next { s with block := (s.block.txFrame bs).txAppendCrc, response := .done } := by
    rw [runEvents_cons, issue, encode, eventOfRaw, hostEvent_command (decodeCommand_commandWord 0 0x14)]
    rfl
  refine ⟨_, (runEvents_append _ hframe).trans hcrc, ?_, ?_, rfl⟩
  · simp only [hblock]
    have hlen := appendCrc_length bs
    have hzeros : 16 - (appendCrc bs).length = 14 - bs.length := by omega
    rw [bufferOf_toList (by omega), hzeros]
  · simp only [hblock]

end Sys2Proof.Machine

/-! PROOFS. The CRC (spec/40_crc.md): the step is the rule's loop, a byte list verifies exactly when it ends in its CRC,
an altered byte is always seen, and the streaming commands compute what the whole-frame functions do. -/

namespace Sys2Proof.Machine

open Sys2Proof

/-! ## The CRC as a function (R100, R101) -/

theorem crcShifts_eq_iterate (n : Nat) (c : Half) : crcShifts n c = crcShift^[n] c := by
  induction n generalizing c with
  | zero => rfl
  | succ n ih => exact ih (crcShift c)

/-- Settles O10: a shift is the rule's loop body, and a step iterates it eight times. -/
theorem crcStepIsTheLoop : Obligations.CrcStepIsTheLoop :=
  ⟨fun c b => crcShifts_eq_iterate 8 (c ^^^ b.setWidth 16), by decide, by decide, by decide⟩

/-- Settles O11: the CRC is a left fold of the step from the seed. -/
theorem crc16TakesTheBytesInOrder : Obligations.Crc16TakesTheBytesInOrder :=
  ⟨crc16_nil, crc16_append_singleton, by decide +kernel⟩

/-! ## The lists that verify (R102, R103, R107) -/

/-- Settles O12: the CRC field of the list is compared with the CRC it was written from. -/
theorem appendThenVerify : Obligations.AppendThenVerify := fun xs => by
  rw [appendCrc, verifyCrc_append_be16, decide_eq_true rfl]

/-- R102, R103: a list that verifies is its body with the body's CRC appended. -/
theorem verifyCrc_iff_exists_appendCrc {xs : List Byte} : verifyCrc xs = true ↔ ∃ ys, xs = appendCrc ys := by
  constructor
  · intro hv
    have hlen : 2 ≤ xs.length := by
      by_contra hshort
      simp [verifyCrc_short (Nat.lt_of_not_le hshort)] at hv
    obtain ⟨ys, c1, c0, rfl, -⟩ := exists_body hlen
    rw [verifyCrc_append_two, beq_iff_eq] at hv
    exact ⟨ys, by rw [appendCrc, hv, be16_fromBe16]⟩
  · rintro ⟨ys, rfl⟩
    exact appendThenVerify ys

/-- Settles O13: the two bytes after the body are its CRC, high byte first. -/
theorem verifiedListsAreTheAppendedOnes : Obligations.VerifiedListsAreTheAppendedOnes :=
  ⟨fun _ => verifyCrc_iff_exists_appendCrc, fun _ => verifyCrc_short⟩

/-! ## An altered byte is seen (R109) -/

/-- Settles O14: the CRC field stays, and the altered body has another CRC. -/
theorem alteredByteFailsTheCrc : Obligations.AlteredByteFailsTheCrc := by
  intro f k x hv hk hx
  obtain ⟨ys, rfl⟩ := verifyCrc_iff_exists_appendCrc.mp hv
  have hbody : k < ys.length := by rw [appendCrc_length] at hk; omega
  rw [appendCrc, List.getD_append _ _ _ _ hbody] at hx
  rw [appendCrc, List.set_append_left _ _ hbody, verifyCrc_append_be16, decide_eq_false_iff_not]
  exact (crc16_set_ne ys k x hbody hx).symm

/-! ## A command issued by the host, and what follows it -/

theorem runEvents_issue {i : Instr} (hi : isCommand i = true) (es : List HostEvent) (s : State) :
    runEvents (issue i :: es) s =
      runEvents es { s with block := blockEffect i s.block, response := .done } := by
  rw [runEvents_cons, issue, hostEvent_eventOfRaw (decode_encode_of_isCommand hi), exec_eq_complete, State.complete_eq]

/-- R77, R149: a frame received byte by byte and then checked by a command. -/
theorem runEvents_rxFrame_issue {i : Instr} (hi : isCommand i = true) (f : List Byte) (s : State) :
    runEvents (rxFrameEvents f ++ [issue i]) s =
      .next { s with block := blockEffect i (s.block.rxFrame f), response := .done } := by
  obtain ⟨r, hframe⟩ := runEvents_rxFrame f s
  rw [runEvents_append _ hframe, runEvents_issue hi, runEvents]

/-- Settles O37: the altered frame is received whole and does not verify, and both checks test its CRC first. -/
theorem alteredResponseIsInvalidCrc : Obligations.AlteredResponseIsInvalidCrc := by
  intro f k x s hf hv hk hx
  have hlen : (f.set k x).length = 9 := by rw [List.length_set, hf]
  have hbad : verifyCrc (f.set k x) = false := alteredByteFailsTheCrc f k x hv (by omega) hx
  refine ⟨⟨_, runEvents_rxFrame_issue rfl _ s, ?_⟩, fun hexp => ⟨_, runEvents_rxFrame_issue rfl _ s, ?_⟩⟩
  · simp [blockEffect, Block.parseRead_rxFrame hlen, hbad]
  · simp [blockEffect, Block.checkWrite_rxFrame hlen, hbad, hexp]

/-! ## The streaming commands (R104 to R106) -/

theorem decodeCommand_eq_ok_iff_eq {i : Instr} {c : Word} (hi : encode i = .command c) (w : Word) :
    decodeCommand w = .ok i ↔ w = c := by
  rw [decodeCommand_eq_ok_iff_encode, hi, RawInstr.command.injEq, eq_comm]

/-- Settles O17: the word is the one written for CRC_INIT, whose effect does not read what it writes. -/
theorem crcInitResult : Obligations.CrcInitResult := fun s =>
  ⟨decodeCommand_eq_ok_iff_eq rfl, exec_eq_complete .crcInit s, exec_eq_complete .crcInit _⟩

/-- Settles O18: the word is the one written for CRC_BYTE b, whose effect is one step of the register. -/
theorem crcByteResult : Obligations.CrcByteResult :=
  ⟨fun s b => ⟨decodeCommand_eq_ok_iff_eq rfl, exec_eq_complete (.crcByte b) s⟩, by decide⟩

/-- R105: the bytes put through the register one by one fold the step over it. -/
theorem foldl_crcByte_eq (xs : List Byte) (b : Block) (he : b.err = .ok) :
    xs.foldl (fun acc x => blockEffect (.crcByte x) acc) b = { b with crc := xs.foldl crcStep b.crc } := by
  induction xs generalizing b with
  | nil => rfl
  | cons x xs ih =>
    rw [List.foldl_cons, ih _ rfl, he]
    rfl

/-- Settles O15: CRC_INIT puts the seed in CRC, and each CRC_BYTE is one step of the fold. -/
theorem streamingEqualsBatch : Obligations.StreamingEqualsBatch := by
  intro xs s
  obtain ⟨r, hbytes⟩ := runEvents_commands xs Instr.crcByte (fun _ => ⟨_, rfl, decodeCommand_commandWord _ _⟩)
    { s with block := s.block.crcInit, response := .done }
  refine ⟨_, (runEvents_issue (i := .crcInit) rfl _ s).trans hbytes, ?_, rfl⟩
  exact foldl_crcByte_eq xs s.block.crcInit rfl

end Sys2Proof.Machine

/-! PROOFS. The frame-building commands (spec/41_frame_build.md): the words they are written as, what each leaves in the
request buffer and the expected response, and that every frame they build verifies. -/

namespace Sys2Proof.Machine

open Sys2Proof

/-- An instruction answers the next state with the block its effect is equal to, and nothing else changed. -/
theorem exec_eq_next_of_blockEffect {i : Instr} {s : State} {b : Block} (h : blockEffect i s.block = b) :
    exec i s = .next { s with block := b } := by
  rw [exec_eq_complete, State.complete_eq, h]

/-! ## Bytes put at TXLEN (R126, R127) -/

/-- R126: a byte goes in at index TXLEN, and every other byte of TXBUF stays. -/
theorem Block.appendTx_txbuf_getElem (b : Block) (x : Byte) (i : Fin 16) :
    (b.appendTx x).txbuf[i] = if i.val = b.txlen then x else b.txbuf[i] :=
  (Vector.getElem_setIfInBounds i.isLt).trans (if_congr eq_comm rfl rfl)

/-- R127: two bytes go in at TXLEN and the index after it, and every other byte of TXBUF stays. -/
theorem Block.appendTx_appendTx_txbuf_getElem (b : Block) (x y : Byte) (i : Fin 16) :
    ((b.appendTx x).appendTx y).txbuf[i] =
      if i.val = b.txlen then x else if i.val = b.txlen + 1 then y else b.txbuf[i] := by
  rw [Block.appendTx_txbuf_getElem, Block.appendTx_txbuf_getElem, Block.appendTx_txlen]
  by_cases hfirst : i.val = b.txlen
  · rw [if_neg (by omega), if_pos hfirst, if_pos hfirst]
  · rw [if_neg hfirst, if_neg hfirst]

/-- Settles O22, by whether TXLEN leaves room. -/
theorem txPushResult : Obligations.TxPushResult := fun s b =>
  ⟨decodeCommand_eq_ok_iff_eq rfl,
    fun hroom => ⟨_, exec_eq_next_of_blockEffect (Block.txPush_of_room b hroom), s.block.appendTx_txbuf_getElem b, rfl⟩,
    fun hfull => exec_eq_next_of_blockEffect (Block.txPush_of_full b hfull)⟩

/-- Settles O23, by whether two bytes are free: the bytes put in are those of the CRC of the request, and the CRC register
passes through unread. -/
theorem txAppendCrcResult : Obligations.TxAppendCrcResult := by
  refine fun s => ⟨decodeCommand_eq_ok_iff_eq rfl, fun hroom => ?_, fun hfull => ?_⟩
  · have heffect : s.block.txAppendCrc = _ := Block.txAppendCrc_of_room hroom
    refine ⟨_, exec_eq_next_of_blockEffect heffect, s.block.appendTx_appendTx_txbuf_getElem _ _, rfl, fun c => ?_⟩
    exact exec_eq_next_of_blockEffect ((s.block.txAppendCrc_withCrc c).trans (by rw [heffect]))
  · exact exec_eq_next_of_blockEffect (Block.txAppendCrc_of_full hfull)

/-! ## The frames built verify (R129) -/

/-- R129: TX_APPEND_CRC that reports OK found room, so the request is the old one with its CRC. -/
theorem Block.verifyCrc_txAppendCrc_txBytes {b : Block} (h : b.txAppendCrc.err = .ok) :
    verifyCrc b.txAppendCrc.txBytes = true := by
  by_cases hroom : b.txlen ≤ 14
  · rw [Block.txAppendCrc_txBytes hroom]
    exact appendThenVerify b.txBytes
  · rw [Block.txAppendCrc_of_full hroom, Block.setErr_err] at h
    cases h

/-- R129: a list with its CRC appended, put in a buffer, verifies there. -/
theorem verifyCrc_firstBytes_bufferOf_appendCrc {n k : Nat} {xs : List Byte} (hk : (appendCrc xs).length = k)
    (hn : k ≤ n) : verifyCrc (firstBytes (bufferOf n (appendCrc xs)) k) = true := by
  subst hk
  rw [firstBytes_bufferOf hn]
  exact appendThenVerify xs

/-- Settles O33: each frame is some list with its CRC appended, and is read back from the buffer it was put in. -/
theorem builtFramesVerify : Obligations.BuiltFramesVerify := fun s =>
  ⟨⟨_, exec_eq_next_of_blockEffect s.block.buildWrite_eq,
      verifyCrc_firstBytes_bufferOf_appendCrc (writeRequest_length ..) (by decide),
      verifyCrc_firstBytes_bufferOf_appendCrc (writeExpected_length ..) (by decide)⟩,
    ⟨_, exec_eq_next_of_blockEffect s.block.buildRead_eq,
      verifyCrc_firstBytes_bufferOf_appendCrc (readRequest_length ..) (by decide)⟩,
    ⟨_, exec_eq_complete .txAppendCrc s, Block.verifyCrc_txAppendCrc_txBytes⟩⟩

/-! ## The requests and the expected response, byte for byte (R81 to R83) -/

/-- R81, R82: the bytes a write request and its response share. -/
theorem writeHead_eq (n : Byte) (a : Half) :
    writeHead n a = [n, 0x06, a.extractLsb' 8 8, a.extractLsb' 0 8, 0x00, 0x01, 0x04] := rfl

/-- R83: the bytes of a read request before its CRC. -/
theorem readRequest_eq (n : Byte) (a : Half) :
    readRequest n a = appendCrc [n, 0x03, a.extractLsb' 8 8, a.extractLsb' 0 8, 0x00, 0x04] := rfl

/-- Settles O19: what BUILD_WRITE writes, with the buffers read as lists. -/
theorem buildWriteResult : Obligations.BuildWriteResult := by
  refine fun s => ⟨decodeCommand_eq_ok_iff_eq rfl, _, exec_eq_next_of_blockEffect s.block.buildWrite_eq, ?_, rfl⟩
  simp only [← writeHead_eq]
  exact ⟨bufferOf_toList (f := writeRequest _ _ _) (by simp), bufferOf_toList_self (writeExpected _ _)⟩

/-- Settles O20: what BUILD_READ writes in any state, read from NODE and REGADDR alone; EXPVALID is 0 after it, which is
what CHECK_WRITE tests first. -/
theorem buildReadResult : Obligations.BuildReadResult := by
  have hwritten (s : State) := exec_eq_next_of_blockEffect (i := .buildRead) s.block.buildRead_eq
  refine fun s => ⟨decodeCommand_eq_ok_iff_eq rfl, _, hwritten s, ?_, rfl, fun v => hwritten _, ?_⟩
  · rw [readRequest_eq]
    exact bufferOf_toList (by simp [appendCrc_length])
  · exact exec_eq_next_of_blockEffect (Block.checkWrite_of_invalid rfl)

/-- Settles O21: the request buffer is filled from the empty frame. -/
theorem txClearResult : Obligations.TxClearResult := fun s =>
  ⟨decodeCommand_eq_ok_iff_eq rfl, _, exec_eq_complete .txClear s,
    fun i => bufferOf_zero_fill 16 [] i (Nat.zero_le _), rfl⟩

end Sys2Proof.Machine

/-! PROOFS. Receiving and checking (spec/42_frame_check.md): what the receive buffer's commands do, the tests of the three
checks in their order, the responses each exchange accepts, and who takes an overflow back. -/

namespace Sys2Proof.Machine

open Sys2Proof

/-! ## The receive buffer (R143, R144) -/

/-- Settles O24: the receive buffer is filled from the empty frame. -/
theorem rxClearResult : Obligations.RxClearResult := fun s =>
  ⟨decodeCommand_eq_ok_iff_eq rfl, _, exec_eq_complete .rxClear s,
    fun i => bufferOf_zero_fill 16 [] i (Nat.zero_le _), rfl⟩

/-- R144: a byte goes in at index RXCNT, and every other byte of RXBUF stays. -/
theorem Block.appendRx_rxbuf_getElem (b : Block) (x : Byte) (i : Fin 16) :
    (b.appendRx x).rxbuf[i] = if i.val = b.rxcnt then x else b.rxbuf[i] :=
  (Vector.getElem_setIfInBounds i.isLt).trans (if_congr eq_comm rfl rfl)

/-- Settles O25, by whether RXCNT leaves room. -/
theorem rxPushResult : Obligations.RxPushResult := fun s b =>
  ⟨decodeCommand_eq_ok_iff_eq rfl,
    fun hroom => ⟨_, exec_eq_next_of_blockEffect (Block.rxPush_of_room b hroom), s.block.appendRx_rxbuf_getElem b, rfl⟩,
    fun hfull => exec_eq_next_of_blockEffect (Block.rxPush_of_full b hfull)⟩

/-! ## The CRC test of the bytes received (R145) -/

theorem crcOutcome_of_verified {f : List Byte} (h : verifyCrc f = true) : crcOutcome f = .ok := if_pos h

theorem crcOutcome_of_not_verified {f : List Byte} (h : verifyCrc f = false) : crcOutcome f = .invalidCrc :=
  if_neg (Bool.not_eq_true _ ▸ h)

theorem Block.rxVerifyCrc_of_short {b : Block} (h : b.rxovf = true ∨ b.rxcnt < 2) :
    b.rxVerifyCrc = b.setCheck false .invalidResponse := if_pos h

theorem Block.rxVerifyCrc_of_two_le {b : Block} (hovf : b.rxovf = false) (hcnt : 2 ≤ b.rxcnt) :
    b.rxVerifyCrc = b.setCheck (verifyCrc b.rxBytes) (crcOutcome b.rxBytes) :=
  if_neg (not_or.mpr ⟨Bool.eq_false_iff.mp hovf, Nat.not_lt.mpr hcnt⟩)

/-- Settles O26, by the length test and then by whether the bytes received verify. -/
theorem rxVerifyCrcResult : Obligations.RxVerifyCrcResult := by
  refine ⟨fun s => ⟨decodeCommand_eq_ok_iff_eq rfl, fun hshort => ?_, fun hovf hcnt hcrc => ?_, fun hovf hcnt hcrc => ?_⟩,
    by decide, by decide⟩
  · exact exec_eq_next_of_blockEffect (Block.rxVerifyCrc_of_short hshort)
  · have hverified : verifyCrc s.block.rxBytes = true := hcrc
    refine exec_eq_next_of_blockEffect ((Block.rxVerifyCrc_of_two_le hovf hcnt).trans ?_)
    rw [crcOutcome_of_verified hverified, hverified, Block.setCheck]
  · have hunverified : verifyCrc s.block.rxBytes = false := hcrc
    refine exec_eq_next_of_blockEffect ((Block.rxVerifyCrc_of_two_le hovf hcnt).trans ?_)
    rw [crcOutcome_of_not_verified hunverified, hunverified, Block.setCheck]

/-! ## The tests of both response checks (R142, R146, R147) -/

theorem responseOutcome_of_verified {b : Block} (hovf : b.rxovf = false) (hcnt : b.rxcnt = 9)
    (hcrc : verifyCrc (b.rxbuf.toList.take 9) = true) : responseOutcome b = .ok :=
  (responseOutcome_of_lenOk hovf hcnt).trans (crcOutcome_of_verified hcrc)

theorem responseOutcome_of_not_verified {b : Block} (hovf : b.rxovf = false) (hcnt : b.rxcnt = 9)
    (hcrc : verifyCrc (b.rxbuf.toList.take 9) = false) : responseOutcome b = .invalidCrc :=
  (responseOutcome_of_lenOk hovf hcnt).trans (crcOutcome_of_not_verified hcrc)

/-- R146: a response that fails the length or the CRC test is not compared. -/
theorem Block.checkWrite_of_outcome_ne_ok {b : Block} (hexp : b.expvalid = true) {e : Err} (he : responseOutcome b = e)
    (hne : e ≠ .ok) : b.checkWrite = b.setCheck false e := by
  rw [Block.checkWrite_of_valid hexp, he]
  cases e with
  | ok => exact absurd rfl hne
  | _ => rfl

/-- R146: a response that passes both tests is compared with EXPBUF. -/
theorem Block.checkWrite_of_outcome_ok {b : Block} (hexp : b.expvalid = true) (he : responseOutcome b = .ok) :
    b.checkWrite = b.setCheck true (contentOutcome b) := by
  rw [Block.checkWrite_of_valid hexp, he]

/-- R147: a response that fails the length or the CRC test gives no value. -/
theorem Block.parseRead_of_outcome_ne_ok {b : Block} {e : Err} (he : responseOutcome b = e) (hne : e ≠ .ok) :
    b.parseRead = b.setCheck false e := by
  rw [Block.parseRead, he]
  cases e with
  | ok => exact absurd rfl hne
  | _ => rfl

/-- A byte read from the first bytes of a buffer is the buffer's. -/
theorem firstBytes_getD {n k i : Nat} (buf : Vector Byte n) (hk : i < k) (hn : i < n) :
    (firstBytes buf k).getD i 0 = buf[i] := by
  simp [firstBytes, List.getD_eq_getElem?_getD, List.getElem?_take_of_lt hk, hn]

/-- R140, R147: a response that passes both tests gives its count and its value, by index. -/
theorem Block.parseRead_of_outcome_ok {b : Block} (he : responseOutcome b = .ok) :
    b.parseRead = { b with crcok := true, err := .ok, rdbc := b.rxbuf[2],
                           rdval := b.rxbuf[3] ++ b.rxbuf[4] ++ b.rxbuf[5] ++ b.rxbuf[6] } := by
  have hparsed : parseReadResponse (firstBytes b.rxbuf Config.responseLength) =
      (b.rxbuf[2], b.rxbuf[3] ++ b.rxbuf[4] ++ b.rxbuf[5] ++ b.rxbuf[6]) := by
    rw [parseReadResponse, fromBe32, Config.responseLength]
    simp only [firstBytes_getD, Nat.reduceLT]
  rw [Block.parseRead, he, hparsed, Block.setCheck]

/-- Settles O27, by the tests in their order: EXPVALID, length, CRC, content. -/
theorem checkWriteResult : Obligations.CheckWriteResult := by
  refine fun s => ⟨decodeCommand_eq_ok_iff_eq rfl, fun hexp => ?_, fun hexp hlen => ?_, fun hexp hovf hcnt hcrc => ?_,
    fun hexp hovf hcnt hcrc hcontent => ?_, fun hexp hovf hcnt hcrc hcontent => ?_⟩
  · exact exec_eq_next_of_blockEffect (Block.checkWrite_of_invalid hexp)
  · exact exec_eq_next_of_blockEffect
      (Block.checkWrite_of_outcome_ne_ok hexp (responseOutcome_of_not_lenOk hlen) nofun)
  · exact exec_eq_next_of_blockEffect
      (Block.checkWrite_of_outcome_ne_ok hexp (responseOutcome_of_not_verified hovf hcnt hcrc) nofun)
  · refine exec_eq_next_of_blockEffect
      ((Block.checkWrite_of_outcome_ok hexp (responseOutcome_of_verified hovf hcnt hcrc)).trans ?_)
    rw [contentOutcome_eq, if_pos hcontent, Block.setCheck]
  · refine exec_eq_next_of_blockEffect
      ((Block.checkWrite_of_outcome_ok hexp (responseOutcome_of_verified hovf hcnt hcrc)).trans ?_)
    rw [contentOutcome_eq, if_neg hcontent, Block.setCheck]

/-- Settles O28, by the tests in their order: length, then CRC. -/
theorem parseReadResult : Obligations.ParseReadResult := fun _ =>
  ⟨decodeCommand_eq_ok_iff_eq rfl,
    fun hlen => exec_eq_next_of_blockEffect
      (Block.parseRead_of_outcome_ne_ok (responseOutcome_of_not_lenOk hlen) nofun),
    fun hovf hcnt hcrc => exec_eq_next_of_blockEffect
      (Block.parseRead_of_outcome_ne_ok (responseOutcome_of_not_verified hovf hcnt hcrc) nofun),
    fun hovf hcnt hcrc => exec_eq_next_of_blockEffect
      (Block.parseRead_of_outcome_ok (responseOutcome_of_verified hovf hcnt hcrc))⟩

/-! ## Responses received byte by byte (R141, R142, R149) -/

/-- R141: of a received frame the length test sees its length alone. -/
theorem lenOk_rxFrame_iff (f : List Byte) (b : Block) : lenOk (b.rxFrame f) = true ↔ f.length = 9 := by
  rw [lenOk_iff]
  constructor
  · intro hlen
    by_contra hne
    exact rxFrame_not_nine hne b hlen
  · intro h9
    obtain ⟨hovf, hcnt, -⟩ := rxFrame_nine h9 b
    exact ⟨hovf, hcnt⟩

theorem Block.rxFrame_expvalid (f : List Byte) (b : Block) : (b.rxFrame f).expvalid = b.expvalid := by
  rw [Block.rxFrame_eq]

/-- R141, R147: a received frame of another length than nine gives no value. -/
theorem Block.parseRead_rxFrame_of_ne_nine {f : List Byte} (hf : f.length ≠ 9) (b : Block) :
    (b.rxFrame f).parseRead = (b.rxFrame f).setCheck false .invalidResponse :=
  Block.parseRead_of_outcome_ne_ok (responseOutcome_of_not_lenOk (rxFrame_not_nine hf b)) nofun

/-- R141, R146: a received frame of another length than nine is not compared. -/
theorem Block.checkWrite_rxFrame_of_ne_nine {f : List Byte} (hf : f.length ≠ 9) {b : Block} (hexp : b.expvalid = true) :
    (b.rxFrame f).checkWrite = (b.rxFrame f).setCheck false .invalidResponse :=
  Block.checkWrite_of_outcome_ne_ok ((b.rxFrame_expvalid f).trans hexp)
    (responseOutcome_of_not_lenOk (rxFrame_not_nine hf b)) nofun

/-- Settles O36: the length test sees the length of the frame alone, and both checks make it before they read a byte. -/
theorem responseLengthIsExactlyNine : Obligations.ResponseLengthIsExactlyNine := by
  intro bs s
  obtain ⟨r, hframe⟩ := runEvents_rxFrame bs s
  refine ⟨⟨_, hframe, lenOk_rxFrame_iff bs s.block, lenOk_iff _⟩, fun hbs => ⟨⟨_, runEvents_rxFrame_issue rfl bs s, ?_⟩,
    fun hexp => ⟨_, runEvents_rxFrame_issue rfl bs s, ?_⟩⟩⟩
  · simp [blockEffect, Block.parseRead_rxFrame_of_ne_nine hbs]
  · simp [blockEffect, Block.checkWrite_rxFrame_of_ne_nine hbs hexp]

/-- R146: where the expected response verifies, CHECK_WRITE accepts it and no other frame. -/
theorem Block.checkWrite_rxFrame_err_eq_ok_iff {b : Block} (hexp : b.expvalid = true)
    (hcrc : verifyCrc b.expbuf.toList = true) (f : List Byte) :
    (b.rxFrame f).checkWrite.err = .ok ↔ f = b.expbuf.toList := by
  by_cases hf : f.length = 9
  · rw [Block.checkWrite_rxFrame hf]
    cases hv : verifyCrc f with
    | false =>
      have hne : f ≠ b.expbuf.toList := by
        rintro rfl
        rw [hcrc] at hv
        cases hv
      simp [hexp, hne]
    | true => simp [hexp]
  · have hne : f ≠ b.expbuf.toList := by
      rintro rfl
      exact hf Vector.length_toList
    simp [Block.checkWrite_rxFrame_of_ne_nine hf hexp, hne]

/-- Settles O38: BUILD_WRITE leaves the echo in EXPBUF, and the echo verifies. -/
theorem writeExchangeAcceptsOnlyTheEcho : Obligations.WriteExchangeAcceptsOnlyTheEcho := by
  intro bs s
  refine ⟨_, (runEvents_issue (i := .buildWrite) rfl _ s).trans (runEvents_rxFrame_issue rfl bs _), ?_⟩
  have hexpbuf : s.block.buildWrite.expbuf.toList = writeExpected s.block.node s.block.regaddr := by
    rw [Block.buildWrite_eq]
    exact bufferOf_toList_self (writeExpected _ _)
  have haccept := Block.checkWrite_rxFrame_err_eq_ok_iff (b := s.block.buildWrite) (by rw [Block.buildWrite_eq])
    (by rw [hexpbuf]; exact appendThenVerify _) bs
  rwa [hexpbuf] at haccept

/-! ## The host's exchanges (R171, R172, R230) -/

/-- R55: reads one after another change the response alone. -/
theorem runEvents_reads {α : Type} (xs : List α) (off : α → Nat) (s : State) :
    ∃ r, runEvents (xs.map fun x => rd (off x)) s = .next { s with response := r } := by
  induction xs generalizing s with
  | nil => exact ⟨s.response, rfl⟩
  | cons x xs ih =>
    have hread : hostEvent (rd (off x)) s =
        .next { s with response := (hostRead Config.busBytes (off x) s).response } := by
      rw [rd, hostEvent, Host.Outcome.next.injEq, State.mk.injEq]
      exact ⟨hostRead_block .., hostRead_pending .., rfl⟩
    obtain ⟨r, hr⟩ := ih { s with response := (hostRead Config.busBytes (off x) s).response }
    exact ⟨r, by rw [List.map_cons, runEvents_cons, hread]; exact hr⟩

/-- R172: the accesses up to the request's bytes being read leave the block as the request does. -/
theorem runEvents_requestEvents_read (node : Byte) (a : Half) (s : State) :
    ∃ r, runEvents (requestEvents node (.read a)) s =
      .next { s with block := s.block.requestRead node a, response := r } := by
  have hbuild : runEvents [setNode node, setReg a, issue .buildRead] s =
      .next { s with block := s.block.requestRead node a, response := .done } :=
    runEvents_issue (i := .buildRead) rfl [] _
  obtain ⟨r, hr⟩ := runEvents_reads (List.range Config.readRequestLength) (fun i => 0x40 + 4 * i)
    { s with block := s.block.requestRead node a, response := .done }
  exact ⟨r, (runEvents_append _ hbuild).trans hr⟩

/-- R171, R172: the accesses from the received bytes on run RXFRAME and the check, and read the outcome from STATUS. -/
theorem runEvents_responseEvents (x : Exchange) (f : List Byte) (s : State) :
    runEvents (responseEvents x f) s =
      .next { s with block := blockEffect (checkOf x) (s.block.rxFrame f),
                     response := .data (statusWord (blockEffect (checkOf x) (s.block.rxFrame f))) } := by
  have hcheck : isCommand (checkOf x) = true := by cases x <;> rfl
  have hsplit : responseEvents x f = (rxFrameEvents f ++ [issue (checkOf x)]) ++ [rd 0x04] := by
    rw [responseEvents, List.append_assoc, List.singleton_append]
  rw [hsplit, runEvents_append _ (runEvents_rxFrame_issue hcheck f s)]
  exact runEvents_rd (r := .status) (by decide) (by decide) rfl _

/-- R172: a read exchange builds its request, receives the response and parses it. -/
theorem runEvents_exchangeEvents_read (p : HostParams) (node : Byte) (a : Half) {f : List Byte}
    (hf : f.length ≤ p.rxReadMax) {s : State} {b : Block}
    (hb : ((s.block.requestRead node a).rxFrame f).parseRead = b) :
    runEvents (exchangeEvents p node (.read a) (.bytes f)) s =
      .next { s with block := b, response := .data (statusWord b) } := by
  subst hb
  obtain ⟨r, hr⟩ := runEvents_requestEvents_read node a s
  rw [exchangeEvents, List.take_of_length_le hf, runEvents_append _ hr]
  exact runEvents_responseEvents (.read a) f _

/-- R175, R230: a read exchange whose STATUS shows OK ends well, with RDVAL and RDBC for its result. -/
theorem runExchanges_read_of_ok {p : HostParams} {node : Byte} {a : Half} {f : List Byte} {s t : State}
    (hrun : runEvents (exchangeEvents p node (.read a) (.bytes f)) s = .next t)
    (hstatus : t.response = .data (statusWord t.block)) (herr : t.block.err = .ok) :
    runExchanges p node [] [.read a] [.bytes f] [] s =
      .ended .noError [{ rdval := t.block.rdval, rdbc := t.block.rdbc }]
        { t with response := .data (t.block.rdbc.setWidth 32) } := by
  have hexit : exchangeExit t (.bytes f) = some .noError := by
    simp only [exchangeExit, hstatus, errOfStatus_statusWord, herr, exitOfErr]
  simp only [runExchanges, List.headD_cons, List.nil_append, hrun, hexit, readWords_read, exchangeResult_read]

/-- R12: a word's bytes, most significant first. -/
theorem be32_eq (v : Word) :
    be32 v = [v.extractLsb' 24 8, v.extractLsb' 16 8, v.extractLsb' 8 8, v.extractLsb' 0 8] := rfl

/-- R148: PARSE_READ of a synthesized read response gives its count and its value. -/
theorem Block.parseRead_rxFrame_appendCrc (n func count : Byte) (v : Word) (b : Block) :
    (b.rxFrame (appendCrc ([n, func, count] ++ be32 v))).parseRead =
      { b with rxbuf := bufferOf 16 (appendCrc ([n, func, count] ++ be32 v)), rxcnt := 9, rxovf := false,
               crcok := true, rdbc := count, rdval := v, err := .ok } := by
  have hcrc : verifyCrc (appendCrc ([n, func, count] ++ be32 v)) = true := appendThenVerify _
  have hparsed : parseReadResponse (appendCrc ([n, func, count] ++ be32 v)) = (count, v) :=
    parseReadResponse_readResponse n func count v (crc16 ([n, func, count] ++ be32 v))
  rw [Block.parseRead_rxFrame (appendCrc_length _)]
  simp only [hcrc, hparsed, if_true]

/-- Settles O39: the synthesized response verifies and is parsed, after RXFRAME and after the request of an exchange. -/
theorem readRoundTrip : Obligations.ReadRoundTrip := by
  intro n func count v s
  simp only [← be32_eq]
  refine ⟨⟨_, runEvents_rxFrame_issue rfl _ s, ?_⟩, fun p node a hmax => ?_⟩
  · simp only [blockEffect, Block.parseRead_rxFrame_appendCrc, and_self]
  · have hrun := runEvents_exchangeEvents_read p node a (f := appendCrc ([n, func, count] ++ be32 v)) (s := s) hmax
      (Block.parseRead_rxFrame_appendCrc n func count v (s.block.requestRead node a))
    refine ⟨_, runExchanges_read_of_ok hrun rfl rfl, rfl, ?_⟩
    simp only [Block.requestRead_eq]
    exact bufferOf_toList (by simp)

/-! ## The overflow flag (R29, R144) -/

/-- R144: a push never takes RXOVF back. -/
theorem Block.rxPush_rxovf {b : Block} (x : Byte) (h : b.rxovf = true) : (b.rxPush x).rxovf = true := by
  by_cases hroom : b.rxcnt < 16
  · rw [Block.rxPush_of_room x hroom]
    exact h
  · rw [Block.rxPush_of_full x hroom]

/-- R29: of the commands only RX_CLEAR takes RXOVF back. -/
theorem blockEffect_rxovf {i : Instr} (hi : isCommand i = true) (hclear : i ≠ .rxClear) {b : Block}
    (h : b.rxovf = true) : (blockEffect i b).rxovf = true := by
  obtain ⟨_, _, heq⟩ | ⟨-, _, _, _, heq⟩ | ⟨-, _, _, heq⟩ | ⟨-, _, _, _, heq⟩ | ⟨rfl | ⟨x, rfl⟩, -⟩ | ⟨-, _, _, heq⟩ |
    ⟨-, _, _, heq⟩ := blockEffect_footprint hi b
  · exact (congrArg Block.rxovf heq).trans h
  · exact (congrArg Block.rxovf heq).trans h
  · exact (congrArg Block.rxovf heq).trans h
  · exact (congrArg Block.rxovf heq).trans h
  · exact absurd rfl hclear
  · exact Block.rxPush_rxovf x h
  · exact (congrArg Block.rxovf heq).trans h
  · exact (congrArg Block.rxovf heq).trans h

theorem wordEffect_rxovf {w : Word} (hclear : decodeCommand w ≠ .ok .rxClear) {b : Block} (h : b.rxovf = true) :
    (wordEffect w b).rxovf = true := by
  obtain heq | ⟨i, hd, heq⟩ := wordEffect_cases w
  · rw [heq]
    exact h
  · rw [heq]
    exact blockEffect_rxovf (decodeCommand_isCommand hd) (fun hi => hclear (hi ▸ hd)) h

/-- Settles O54: of the effects of a step only reset, a frame's and RX_CLEAR's take RXOVF back; and the invariant, which
every step keeps, says that the buffer is full where RXOVF is 1. -/
theorem overflowStaysUntilCleared : Obligations.OverflowStaysUntilCleared := by
  constructor
  · intro s t e rest hp h hbefore hafter
    obtain ⟨hb, -⟩ | ⟨w, he, hb⟩ | ⟨v, -, hb⟩ | ⟨v, -, hb⟩ | ⟨v, -, hb⟩ | ⟨he, -⟩ | ⟨bytes, i, he, -⟩ := step_block hp h
    · simp [hb, hbefore] at hafter
    · refine .inr (.inl ⟨w, he, ?_⟩)
      by_contra hclear
      simp [hb, wordEffect_rxovf hclear hbefore] at hafter
    · simp [hb, hbefore] at hafter
    · simp [hb, hbefore] at hafter
    · simp [hb, hbefore] at hafter
    · exact .inl he
    · exact .inr (.inr ⟨bytes, he⟩)
  · intro s t hinv h hbefore hafter
    exact ⟨hinv.overflow_full hbefore, (step_keeps_inv hinv h).overflow_full hafter⟩

end Sys2Proof.Machine

/-! PROOFS. The control command and the illegal command word (spec/43_control.md): what NOP does, and what a CMD write of a
word that decodes to nothing does. -/

namespace Sys2Proof.Machine

open Sys2Proof

/-! ## The illegal command word (R161) -/

theorem wordEffect_of_illegal {w : Word} (h : ∀ i, decodeCommand w ≠ .ok i) : wordEffect w = Block.illegalCommand :=
  (wordEffect_cases w).resolve_right fun ⟨i, hd, _⟩ => h i hd

/-- R161: the CMD write of a word that decodes to nothing completes, and of the block changes ERR alone. -/
theorem hostEvent_illegalCommand {w : Word} (h : ∀ i, decodeCommand w ≠ .ok i) (s : State) :
    hostEvent (.write Config.busBytes 0x00 w) s =
      .next { s with block := s.block.illegalCommand, response := .done } := by
  show runCommand w { s with response := .done } = _
  rw [runCommand_eq_complete, wordEffect_of_illegal h, State.complete_eq]

theorem decodeCommand_ne_ok_of_error {w : Word} {e : DecodeError} (h : decodeCommand w = .error e) (i : Instr) :
    decodeCommand w ≠ .ok i := by
  rw [h]
  exact nofun

/-- Settles O7: the step runs the illegal command, and each of R161's words is rejected by the test of R74 named here. -/
theorem illegalWordChangesOnlyErr : Obligations.IllegalWordChangesOnlyErr := by
  constructor
  · intro w s rest h hp
    rw [step_event s hp]
    exact hostEvent_illegalCommand h _
  · simp only [List.forall_mem_cons]
    exact ⟨decodeCommand_ne_ok_of_error (e := .unexpectedImm 0x01) (by decide),
      decodeCommand_ne_ok_of_error (e := .reservedBits 0x0001) (by decide),
      decodeCommand_ne_ok_of_error (e := .reservedOp 0xFF) (by decide),
      decodeCommand_ne_ok_of_error (e := .reservedBits 0xFFFF) (by decide),
      decodeCommand_ne_ok_of_error (e := .reservedOp 0x03) (by decide), nofun⟩

/-! ## NOP (R160) -/

/-- Settles O16: the word is the one written for NOP, whose effect is on ERR alone. -/
theorem nopResult : Obligations.NopResult := fun s => ⟨decodeCommand_eq_ok_iff_eq rfl, exec_eq_complete .nop s⟩

end Sys2Proof.Machine

/-! PROOFS. The host's contract (spec/48_host_protocol.md): the frame rows and the accesses they stand for, how a write
exchange ends, the wire integer of a user value, and the mode table. -/

namespace Sys2Proof.Machine

open Sys2Proof

/-! ## The frame rows and their accesses (R77, R171, R172) -/

/-- R171: SETNODE, SETREG, SETVAL and BUILD_WRITE, one step each, build the write request. -/
theorem runEvents_buildWrite_operands (n : Byte) (a : Half) (v : Word) (s : State) :
    runEvents [setNode n, setReg a, setVal v, issue .buildWrite] s =
      .next { s with block := s.block.requestWrite n a v, response := .done } :=
  runEvents_issue (i := .buildWrite) rfl [] _

/-- R172: SETNODE, SETREG and BUILD_READ, one step each, build the read request. -/
theorem runEvents_buildRead_operands (n : Byte) (a : Half) (s : State) :
    runEvents [setNode n, setReg a, issue .buildRead] s =
      .next { s with block := s.block.requestRead n a, response := .done } :=
  runEvents_issue (i := .buildRead) rfl [] _

/-- Settles O32: a row's effect on the block is the composition of its accesses' effects. -/
theorem frameRowsEqualTheirAccesses : Obligations.FrameRowsEqualTheirAccesses := by
  refine fun s => ⟨fun n a v => ?_, fun n a => ?_, fun n a crc f hf => ?_, fun n func count v crc f hf => ?_⟩
  · exact ⟨_, _, exec_eq_complete _ s, runEvents_buildWrite_operands n a v s, rfl⟩
  · exact ⟨_, _, exec_eq_complete _ s, runEvents_buildRead_operands n a s, rfl⟩
  · cases hf
    exact ⟨_, _, exec_eq_complete _ s, runEvents_rxFrame_issue rfl _ s, rfl⟩
  · cases hf
    exact ⟨_, _, exec_eq_complete _ s, runEvents_rxFrame_issue rfl _ s, rfl⟩

/-! ## Write exchanges and Switch (R171, R177, R184) -/

/-- R171: the accesses up to the request's bytes being read leave the block as the request does. -/
theorem runEvents_requestEvents_write (node : Byte) (a : Half) (v : Word) (s : State) :
    ∃ r, runEvents (requestEvents node (.write a v)) s =
      .next { s with block := s.block.requestWrite node a v, response := r } := by
  obtain ⟨r, hr⟩ := runEvents_reads (List.range Config.writeRequestLength) (fun i => 0x40 + 4 * i)
    { s with block := s.block.requestWrite node a v, response := .done }
  exact ⟨r, (runEvents_append _ (runEvents_buildWrite_operands node a v s)).trans hr⟩

/-- R171: a write exchange builds its request, receives the bytes the host takes, checks them, and reads STATUS. -/
theorem runEvents_exchangeEvents_write (p : HostParams) (node : Byte) (a : Half) (v : Word) (bs : List Byte)
    {s : State} {b : Block} (hb : ((s.block.requestWrite node a v).rxFrame (bs.take p.rxReadMax)).checkWrite = b) :
    runEvents (exchangeEvents p node (.write a v) (.bytes bs)) s =
      .next { s with block := b, response := .data (statusWord b) } := by
  subst hb
  obtain ⟨r, hr⟩ := runEvents_requestEvents_write node a v s
  rw [exchangeEvents, runEvents_append _ hr]
  exact runEvents_responseEvents (.write a v) _ _

/-- R175, R184: one write exchange ends with the exit code of the outcome STATUS shows, and with no result. -/
theorem runExchanges_write_of_exitOfErr {p : HostParams} {node : Byte} {a : Half} {v : Word} {bs : List Byte}
    {s t : State} {code : ExitCode} (hrun : runEvents (exchangeEvents p node (.write a v) (.bytes bs)) s = .next t)
    (hstatus : t.response = .data (statusWord t.block)) (hcode : exitOfErr t.block.err = some code) :
    runExchanges p node [] [.write a v] [.bytes bs] [] s = .ended code [] t := by
  have hexit : exchangeExit t (.bytes bs) = some code := by
    simp only [exchangeExit, hstatus, errOfStatus_statusWord, hcode]
  simp only [runExchanges, List.headD_cons, List.nil_append, hrun, hexit]
  cases code <;> rfl

/-- R184: every outcome but CMD_ERROR has an exit code, and no-error is the one of OK alone. -/
theorem exists_exitOfErr {e : Err} (h : e ≠ .cmdError) :
    ∃ code, exitOfErr e = some code ∧ (code = .noError ↔ e = .ok) := by
  cases e with
  | ok => exact ⟨_, rfl, by decide⟩
  | invalidResponse => exact ⟨_, rfl, by decide⟩
  | invalidCrc => exact ⟨_, rfl, by decide⟩
  | cmdError => exact absurd rfl h

/-- R146: CHECK_WRITE reports CMD_ERROR only where no response is expected. -/
theorem Block.checkWrite_err_ne_cmdError {b : Block} (h : b.expvalid = true) : b.checkWrite.err ≠ .cmdError := by
  by_cases hok : responseOutcome b = .ok
  · rw [Block.checkWrite_of_outcome_ok h hok]
    show contentOutcome b ≠ .cmdError
    rw [contentOutcome_eq]
    split <;> exact nofun
  · rw [Block.checkWrite_of_outcome_ne_ok h rfl hok]
    exact responseOutcome_ne_cmdError b

/-- R77, R146: a response that is received and checked leaves the request in TXBUF. -/
theorem Block.checkWrite_rxFrame_txbuf (f : List Byte) (b : Block) : (b.rxFrame f).checkWrite.txbuf = b.txbuf := by
  obtain ⟨_, _, -, hcheck⟩ := (b.rxFrame f).checkWrite_changes
  rw [hcheck, Block.rxFrame_eq]

/-- R146, R171: after a write request the check accepts the request's own echo and no other bytes. -/
theorem Block.checkWrite_rxFrame_requestWrite_err_eq_ok_iff (node : Byte) (a : Half) (v : Word) (f : List Byte)
    (b : Block) : ((b.requestWrite node a v).rxFrame f).checkWrite.err = .ok ↔ f = writeExpected node a := by
  have hexpbuf : (b.requestWrite node a v).expbuf.toList = writeExpected node a := by
    rw [Block.requestWrite_eq]
    exact bufferOf_toList_self (writeExpected node a)
  rw [Block.checkWrite_rxFrame_err_eq_ok_iff (by rw [Block.requestWrite_eq]) (by rw [hexpbuf]; exact appendThenVerify _),
    hexpbuf]

/-- R171, R184: a write exchange ends with an exit code, no result and its request in TXBUF, and ends well exactly where
the bytes the host takes are the echo. -/
theorem runExchanges_write (p : HostParams) (node : Byte) (a : Half) (v : Word) (bs : List Byte) (s : State) :
    ∃ code t, runExchanges p node [] [.write a v] [.bytes bs] [] s = .ended code [] t ∧
      (code = .noError ↔ bs.take p.rxReadMax = writeExpected node a) ∧
      t.block.txbuf.toList = writeRequest node a v ++ [0x00, 0x00, 0x00] := by
  have hvalid : ((s.block.requestWrite node a v).rxFrame (bs.take p.rxReadMax)).expvalid = true := by
    rw [Block.rxFrame_expvalid, Block.requestWrite_eq]
  obtain ⟨code, hcode, hok⟩ := exists_exitOfErr (Block.checkWrite_err_ne_cmdError hvalid)
  refine ⟨code, _, runExchanges_write_of_exitOfErr (runEvents_exchangeEvents_write p node a v bs rfl) rfl hcode, ?_, ?_⟩
  · rw [hok, Block.checkWrite_rxFrame_requestWrite_err_eq_ok_iff]
  · rw [Block.checkWrite_rxFrame_txbuf, Block.requestWrite_eq]
    exact bufferOf_toList (by simp)

/-- Settles O58: Switch is one write exchange with 0x010E, and a run ends in one way only. -/
theorem switchEndsWellOnTheEcho : Obligations.SwitchEndsWellOnTheEcho := by
  intro p node on bs s
  obtain ⟨code, t, hrun, hcode, htx⟩ := runExchanges_write p node 0x010E (if on = true then 1 else 0) bs s
  have hswitch : runSwitch p node on [.bytes bs] s = .ended code [] t := hrun
  refine ⟨?_, code, t, hswitch, htx⟩
  rw [hswitch, ← hcode]
  simp

/-! ## The wire integer of a user value (R180) -/

/-- R180: of a value that is not negative, truncation toward zero is rounding down. -/
theorem exactScale_of_nonneg {x : Decimal} (h : 0 ≤ x.mantissa) (k : Nat) :
    x.exactScale k = x.mantissa * k / 10 ^ x.places :=
  Int.tdiv_eq_ediv_of_nonneg (Int.mul_nonneg h (Int.natCast_nonneg k))

theorem wireInteger_eq_some_iff {p : HostParams} {x : Decimal} {k : Nat} {w : Word} :
    wireInteger p x k = some w ↔ 0 ≤ x.mantissa ∧ p.scaleConvert x k = w.toNat := by
  simp only [wireInteger, Option.ite_none_right_eq_some, Option.some.injEq]
  constructor
  · rintro ⟨⟨hx, hlow, hhigh⟩, rfl⟩
    rw [BitVec.toNat_ofInt]
    exact ⟨hx, by omega⟩
  · rintro ⟨hx, hw⟩
    have hlt := w.isLt
    rw [hw, BitVec.ofInt_natCast, BitVec.ofNat_toNat, BitVec.setWidth_eq]
    exact ⟨⟨hx, by omega, by omega⟩, rfl⟩

theorem wireInteger_eq_none_iff {p : HostParams} {x : Decimal} {k : Nat} :
    wireInteger p x k = none ↔ x.mantissa < 0 ∨ p.scaleConvert x k < 0 ∨ 0x100000000 ≤ p.scaleConvert x k := by
  simp only [wireInteger, ite_eq_right_iff, reduceCtorEq, imp_false]
  omega

/-- Settles O59: of a value that is not negative, the scaled value over `10 ^ places` is rounded down, and the bounds are
those of the quotient. -/
theorem scalingTruncatesExactly : Obligations.ScalingTruncatesExactly := by
  intro p x k hp
  have hpow : (0 : Int) < 10 ^ x.places := by positivity
  constructor
  · intro w hw
    obtain ⟨hx, hscale⟩ := wireInteger_eq_some_iff.mp hw
    rw [hp, exactScale_of_nonneg hx, Int.ediv_eq_iff_of_pos hpow] at hscale
    obtain ⟨hlow, hhigh⟩ := hscale
    exact ⟨hx, hlow, by linarith⟩
  · obtain hneg | hx := lt_or_ge x.mantissa 0
    · simp only [wireInteger_eq_none_iff, hneg, true_or]
    · have hquot : 0 ≤ x.mantissa * k / 10 ^ x.places := by positivity
      rw [wireInteger_eq_none_iff, hp, exactScale_of_nonneg hx, Int.le_ediv_iff_mul_le hpow]
      simp only [hquot.not_gt, false_or]

/-! ## The mode table (R179, R181) -/

/-- R181: the value's last byte is the mode index, and there is no mode above 3. -/
theorem LoadMode.ofValue_eq_none_iff (v : Word) : LoadMode.ofValue v = none ↔ 3 < (v.extractLsb' 0 8).toNat := by
  unfold LoadMode.ofValue
  split
  case h_5 h0 h1 h2 h3 =>
    simp only [imp_false] at h0 h1 h2 h3
    exact iff_of_true rfl (by omega)
  all_goals next hbyte => exact iff_of_false nofun (by omega)

/-- Settles O60: the table by mode, and the decoder as a function of the last byte. -/
theorem modeByteDecides : Obligations.ModeByteDecides := by
  refine ⟨fun m => ?_, fun m => ?_, fun v w h => ?_, LoadMode.ofValue_eq_none_iff⟩
  · cases m <;> simp [LoadMode.code, LoadMode.letter, LoadMode.label]
  · cases m <;> rfl
  · rw [LoadMode.ofValue, LoadMode.ofValue, h]

end Sys2Proof.Machine

/-! PROOFS. Exceptions (spec/60_exceptions.md): no access and no command stops the machine, pending events that are
understood are all taken, and what a command that reports an error has changed. -/

namespace Sys2Proof.Machine

open Sys2Proof

/-! ## No access and no command stops the machine (R200, R226) -/

/-- R54, R203: a host write gives a next state, whether it runs a command, writes a register, or is refused. -/
theorem exists_hostWrite_eq_next (width off : Nat) (v : Word) (s : State) : ∃ t, hostWrite width off v s = .next t := by
  obtain ⟨-, -, h⟩ | ⟨-, -, h⟩ | ⟨-, -, h⟩ | ⟨-, -, h⟩ | ⟨-, h⟩ | ⟨-, h⟩ := hostWrite_cases width off v s
  · exact ⟨_, h.trans (runCommand_eq_complete v _)⟩
  all_goals exact ⟨_, h⟩

/-- Log entry 6: the one event without a next state is a byte string that is no frame, and it is refused. -/
theorem hostEvent_eq_next_or_refused (e : HostEvent) (s : State) :
    (∃ t, hostEvent e s = .next t) ∨ e.understood = false ∧ ∃ r, hostEvent e s = .refused r := by
  cases e with
  | read width off => exact .inl ⟨_, rfl⟩
  | write width off v => exact .inl (exists_hostWrite_eq_next width off v s)
  | frame bytes =>
    cases hd : decodeFrame bytes with
    | ok i => exact .inl ⟨_, (hostEvent_eventOfRaw (r := .frame bytes) hd s).trans (exec_eq_complete i _)⟩
    | error err =>
      refine .inr ⟨?_, .notAFrame bytes.length, ?_⟩
      · rw [HostEvent.understood, hd]
        rfl
      · rw [hostEvent, runFrame, hd]
  | reset => exact .inl ⟨_, rfl⟩
  | wait ms => exact .inl ⟨_, rfl⟩

/-- An understood event is taken off the pending list by the step that does it. -/
theorem exists_step_eq_next {s : State} {e : HostEvent} {rest : List HostEvent} (hp : s.pending = e :: rest)
    (he : e.understood = true) : ∃ t, step s = .next t ∧ t.pending = rest := by
  rw [step_event s hp]
  obtain ⟨t, ht⟩ | ⟨hnot, -⟩ := hostEvent_eq_next_or_refused e { s with pending := rest }
  · exact ⟨t, ht, (hostEvent_block ht).1⟩
  · exact absurd he (Bool.eq_false_iff.mp hnot)

/-- R203: what an access raises is a response to the host, and not the outcome of the step. -/
theorem step_ne_fault (s : State) (r : Fault) : step s ≠ .fault r := by
  cases hp : s.pending with
  | nil =>
    rw [step_idle s hp]
    exact nofun
  | cons e rest =>
    rw [step_event s hp]
    obtain ⟨t, ht⟩ | ⟨-, q, hq⟩ := hostEvent_eq_next_or_refused e { s with pending := rest }
    · rw [ht]
      exact nofun
    · rw [hq]
      exact nofun

/-- Settles O47: of the events only a byte string that is no frame has no next state, and that one is refused. -/
theorem understoodEventsProceed : Obligations.UnderstoodEventsProceed :=
  ⟨fun _ _ _ => exists_step_eq_next, step_idle, step_ne_fault⟩

/-! ## What is pending is done (R57, R58, R200) -/

/-- Settles O48, by induction on what is pending: each step takes one understood event off and leaves the others. -/
theorem safeRunsDrainWhatIsPending : Obligations.SafeRunsDrainWhatIsPending := by
  intro s hs
  rw [State.safe] at hs
  generalize hp : s.pending = es at hs ⊢
  induction es generalizing s with
  | nil => exact ⟨s, rfl, hp⟩
  | cons e rest ih =>
    obtain ⟨he, hrest⟩ := Bool.and_eq_true_iff.mp (List.all_cons.symm.trans hs)
    obtain ⟨t, hstep, ht⟩ := exists_step_eq_next hp he
    rw [List.length_cons, core_run_succ core rest.length s t hstep]
    exact ih t ht hrest

/-! ## What a command that reports an error has changed (R201, R205) -/

/-- R205: a block after a command is the one before it but for ERR where the command reports CMD_ERROR, and but for ERR and
CRCOK where it reports a failed check. -/
def Block.PreciseOutcome (before after : Block) : Prop :=
  (after.err = .cmdError → after = { before with err := .cmdError }) ∧
  (after.err = .invalidResponse ∨ after.err = .invalidCrc →
    after = { before with err := after.err, crcok := after.crcok })

/-- R205 says nothing of a command that reports OK. -/
theorem Block.preciseOutcome_of_ok {before after : Block} (h : after.err = .ok) : before.PreciseOutcome after := by
  simp [Block.PreciseOutcome, h]

/-- An outcome written with CRCOK is precise where CMD_ERROR keeps CRCOK. -/
theorem Block.preciseOutcome_of_check {before after : Block} {c : Bool} {e : Err}
    (h : after = { before with crcok := c, err := e }) (hc : e = .cmdError → c = before.crcok) :
    before.PreciseOutcome after := by
  subst h
  refine ⟨fun (he : e = .cmdError) => ?_, fun _ => rfl⟩
  rw [hc he, he]

theorem Block.preciseOutcome_of_cmdError {before after : Block} (h : after = before.setErr .cmdError) :
    before.PreciseOutcome after :=
  Block.preciseOutcome_of_check h fun _ => rfl

/-- R205, by command: of the thirteen, the two that add to the request can report CMD_ERROR, the three checks a failed
check, CHECK_WRITE either, and the others report OK. -/
theorem blockEffect_preciseOutcome {i : Instr} (hi : isCommand i = true) (b : Block) :
    b.PreciseOutcome (blockEffect i b) := by
  cases i with
  | nop | crcInit | crcByte | buildWrite | buildRead | txClear | rxClear => exact Block.preciseOutcome_of_ok rfl
  | txPush x =>
    obtain ⟨buf, n, h⟩ | h := b.txPush_changes x
    · exact Block.preciseOutcome_of_ok (congrArg Block.err h)
    · exact Block.preciseOutcome_of_cmdError h
  | txAppendCrc =>
    obtain ⟨buf, n, h⟩ | h := b.txAppendCrc_changes
    · exact Block.preciseOutcome_of_ok (congrArg Block.err h)
    · exact Block.preciseOutcome_of_cmdError h
  | rxPush x =>
    obtain ⟨buf, n, ovf, h⟩ := b.rxPush_changes x
    exact Block.preciseOutcome_of_ok (congrArg Block.err h)
  | rxVerifyCrc =>
    obtain ⟨c, e, hne, h⟩ := b.rxVerifyCrc_changes
    exact Block.preciseOutcome_of_check h fun he => absurd he hne
  | checkWrite =>
    obtain ⟨c, e, hc, h⟩ := b.checkWrite_changes
    exact Block.preciseOutcome_of_check h hc
  | parseRead =>
    obtain ⟨e, -, hne, h⟩ | ⟨count, v, h⟩ := b.parseRead_changes
    · exact Block.preciseOutcome_of_check h fun he => absurd he hne
    · exact Block.preciseOutcome_of_ok (congrArg Block.err h)
  | frameWriteRequest | frameWriteResponse | frameReadRequest | frameReadResponse => cases hi

theorem wordEffect_preciseOutcome (w : Word) (b : Block) : b.PreciseOutcome (wordEffect w b) := by
  obtain heq | ⟨i, hd, heq⟩ := wordEffect_cases w
  · exact Block.preciseOutcome_of_cmdError (congrFun heq b)
  · rw [heq]
    exact blockEffect_preciseOutcome (decodeCommand_isCommand hd) b

/-- Settles O53: the word's effect on the block is the whole of what it does, and its outcome is precise. -/
theorem outcomesArePrecise : Obligations.OutcomesArePrecise :=
  fun w s => ⟨_, runCommand_eq_complete w s, wordEffect_preciseOutcome w s.block⟩

end Sys2Proof.Machine


/-! PROOFS. Reset (spec/70_reset_and_hazards.md): the reset event puts the block at its reset values in one step. -/

namespace Sys2Proof.Machine

open Sys2Proof

/-- R220: doing the reset event resets the block and gives no response; what is pending stays pending (log entry 9). -/
theorem hostEvent_reset (s : State) :
    hostEvent .reset s = .next { block := State.reset.block, pending := s.pending, response := .none } := rfl

/-- Settles O9: the step takes the reset off the pending list and does it. -/
theorem resetEventResetsTheBlock : Obligations.ResetEventResetsTheBlock := by
  intro s rest h
  rw [step_event s h, hostEvent_reset]

end Sys2Proof.Machine
